-- ==== Sys2Proof/Word.lean ====
section
/-! DEFINITION. The three bit-vector widths of the PMS7003 framer (spec/00_scope.md R13, spec/30_encoding.md R56).
Every quantity is unsigned (R15); `+` and `-` on these types wrap modulo 2^width. -/

namespace Sys2Proof

/-- A byte of the line or of the FrameBuffer, and an 8-bit field of the operation word (R13, R14). -/
abbrev Byte := BitVec 8

/-- A 16-bit register or operand: `sum`, `chk`, `len`, `idx`, `cap`, CAP, DATA (R13, R58, R60). -/
abbrev Half := BitVec 16

/-- One operation word `W` (R56). -/
abbrev Word := BitVec 64

end Sys2Proof
end

