-- ==== Sys2Proof/Syntax.lean ====
section
/-! DEFINITION. The five operations (spec/30_encoding.md R63) and the assembler's source lines (R69, R70). -/

namespace Sys2Proof

/-- An operation with its operands, one constructor per row of spec/opcode_table.json. Every operand is a plain
unsigned field of its word (R64), typed at that field's width. -/
inductive Instr where
  /-- INIT (R73): bind the capacity `cap` and restart the decoder. -/
  | init (cap : Half)
  /-- PROCESS (R74): consume the byte `b` of the line. -/
  | process (b : Byte)
  /-- PARSE (R96): decode the completed 26-byte payload. -/
  | parse
  /-- PARSE_SHORT (R97): decode the completed 2-byte payload. -/
  | parseShort
  /-- ENCODE (R101): build the command frame of `cmd` and `data` for a caller's buffer of `cap` bytes. -/
  | encode (cmd : Byte) (data : Half) (cap : Half)
  deriving DecidableEq, Repr

/-- A line of assembler source with its operand literals as written (R69, R71), and the pseudo-instruction FEED (R70). -/
inductive AsmLine where
  | init (cap : Nat)
  | proc (b : Nat)
  | parse
  | parseShort
  | encode (cmd data cap : Nat)
  | feed (bytes : List Nat)
  deriving DecidableEq, Repr

end Sys2Proof
end

