-- ==== Sys2Proof/Decode.lean ====
section
/-! DEFINITION. The operation word: its fields (spec/30_encoding.md R56 to R62), the opcode map (R63), the decoder
(R68) and the encoder (R63, R69). -/

namespace Sys2Proof

/-! ## Fields of the word (R56) -/

/-- `OPC` = `W[63:56]` (R57). -/
def opcField (w : Word) : Byte := w.extractLsb' 56 8

/-- `RSV0` = `W[55:48]` (R61). -/
def rsv0Field (w : Word) : Byte := w.extractLsb' 48 8

/-- `CAP` = `W[47:32]` (R58). -/
def capField (w : Word) : Half := w.extractLsb' 32 16

/-- `RSV1` = `W[31:24]` (R61). -/
def rsv1Field (w : Word) : Byte := w.extractLsb' 24 8

/-- `CMD` = `W[23:16]` (R59). -/
def cmdField (w : Word) : Byte := w.extractLsb' 16 8

/-- `DATA` = `W[15:0]` (R60). -/
def dataField (w : Word) : Half := w.extractLsb' 0 16

/-- `BYTE` = `W[7:0]` (R60). -/
def byteField (w : Word) : Byte := w.extractLsb' 0 8

/-- The word with the six fields of R56, `OPC` first (bit 63) and `DATA` last. -/
def packWord (opc rsv0 : Byte) (cap : Half) (rsv1 cmd : Byte) (data : Half) : Word :=
  opc ++ rsv0 ++ cap ++ rsv1 ++ cmd ++ data

/-! ## The decoder (R68) -/

/-- Why a word is illegal (R65). Each of them raises ILLEGAL_OPERATION (R107). -/
inductive IllegalWord where
  /-- `RSV0` or `RSV1` is not 0 (R61). -/
  | reservedField
  /-- A field the operation does not use is not 0 (R62). -/
  | unusedField
  /-- `OPC` is 0x00 or 0x06 to 0xFF (R65). -/
  | noOperation
  deriving DecidableEq, Repr

/-- The operation a word names, or why it names none: total on every 64-bit word (R68). -/
def decode (w : Word) : Except IllegalWord Instr :=
  if rsv0Field w ≠ 0#8 ∨ rsv1Field w ≠ 0#8 then .error .reservedField
  else if opcField w = 0x01#8 then
    if w.extractLsb' 0 32 = 0#32 then .ok (.init (capField w)) else .error .unusedField
  else if opcField w = 0x02#8 then
    if w.extractLsb' 8 40 = 0#40 then .ok (.process (byteField w)) else .error .unusedField
  else if opcField w = 0x03#8 then
    if w.extractLsb' 0 56 = 0#56 then .ok .parse else .error .unusedField
  else if opcField w = 0x04#8 then
    if w.extractLsb' 0 56 = 0#56 then .ok .parseShort else .error .unusedField
  else if opcField w = 0x05#8 then .ok (.encode (cmdField w) (dataField w) (capField w))
  else .error .noOperation

/-! ## The encoder (R63, R69) -/

/-- The one word that spells an operation. -/
def encode : Instr → Word
  | .init cap => packWord 0x01#8 0#8 cap 0#8 0#8 0#16
  | .process b => packWord 0x02#8 0#8 0#16 0#8 0#8 (0#8 ++ b)
  | .parse => packWord 0x03#8 0#8 0#16 0#8 0#8 0#16
  | .parseShort => packWord 0x04#8 0#8 0#16 0#8 0#8 0#16
  | .encode cmd data cap => packWord 0x05#8 0#8 cap 0#8 cmd data

/-! ## The opcode map (R63) -/

/-- A row of the opcode map: a word `W` selects it iff `W & mask == match` (R63). -/
structure OpcodeRow where
  mnemonic : String
  matchBits : Word
  maskBits : Word
  deriving DecidableEq, Repr

/-- R63: the word selects the row. -/
def OpcodeRow.selects (r : OpcodeRow) (w : Word) : Bool := decide (w &&& r.maskBits = r.matchBits)

/-- The row of an operation, as R63 and spec/opcode_table.json give it. -/
def opcodeRow : Instr → OpcodeRow
  | .init _ => ⟨"INIT", 0x0100000000000000#64, 0xFFFF0000FFFFFFFF#64⟩
  | .process _ => ⟨"PROCESS", 0x0200000000000000#64, 0xFFFFFFFFFFFFFF00#64⟩
  | .parse => ⟨"PARSE", 0x0300000000000000#64, 0xFFFFFFFFFFFFFFFF#64⟩
  | .parseShort => ⟨"PARSE_SHORT", 0x0400000000000000#64, 0xFFFFFFFFFFFFFFFF#64⟩
  | .encode _ _ _ => ⟨"ENCODE", 0x0500000000000000#64, 0xFFFF0000FF000000#64⟩

/-- The opcode map, one row per operation (R63). -/
def opcodeTable : List OpcodeRow :=
  [opcodeRow (.init 0), opcodeRow (.process 0), opcodeRow .parse, opcodeRow .parseShort, opcodeRow (.encode 0 0 0)]

/-! ## Words given as numbers -/

/-- The operation word whose low `nbits` bits are those of `w`, every bit above them 0. The word is one 64-bit unit,
numbered as the opcode table numbers it (R14, R56; log entry 11). -/
def wordOfBits (nbits w : Nat) : Word := BitVec.ofNat 64 (w % 2 ^ nbits)

/-- The operation the decoder reads from a word given as a number of `nbits` bits. -/
def decodeTableWord (nbits w : Nat) : Option Instr :=
  match decode (wordOfBits nbits w) with
  | .ok i => some i
  | .error _ => none

end Sys2Proof
end

