-- ==== Sys2Proof/Config.lean ====
section
/-! DEFINITION. The implementation parameters of one instance (spec/00_scope.md R9 to R11).
The source leaves all three open: a claim holds for every configuration, or names the one it assumes. -/

namespace Sys2Proof

/-- `LEN_MODE` (R9): a one-byte or a two-byte big-endian length field. -/
inductive LenMode where
  | len1
  | len2
  deriving DecidableEq, Repr

/-- `HDR_RESYNC` (R10): what happens to a byte of AWAIT_H2 that is not the second magic byte. -/
inductive HdrResync where
  | discard
  | reprocess
  deriving DecidableEq, Repr

/-- The parameters of an instance, fixed when it is constructed; no operation changes them (R9 to R11). -/
structure Config where
  /-- `LEN_MODE`. -/
  lenMode : LenMode
  /-- `HDR_RESYNC`. -/
  hdrResync : HdrResync
  /-- `BUF_SIZE`, the number of bytes of FrameBuffer storage; `Config.wf` gives its range. -/
  bufSize : Nat
  deriving DecidableEq, Repr

/-- The instance `Machine.State.reset` stands for: the one most vectors of spec/95_test_vectors.md are stated for.
DESIGN CHOICE, unsafe (log entry 2): the spec gives the parameters no default, so no statement rests on this value. -/
def Config.vectors : Config :=
  { lenMode := .len2, hdrResync := .reprocess, bufSize := 64 }

end Sys2Proof
end

