-- ==== Sys2Proof/Machine/State.lean ====
section
/-! DEFINITION. The state of one instance: the record `S` of spec/10_state.md R19, the FrameBuffer of spec/20_memory.md
R38, the configuration it was constructed with, and the host's side of the interface (spec/60_exceptions.md R121, R122).
Plain data throughout. -/

namespace Sys2Proof.Machine

/-- `S.state`, the parse position (R20), in the order of its codes 0 to 7. -/
inductive ParseState where
  | awaitH1
  | awaitH2
  | awaitLen
  | awaitLenHi
  | awaitLenLo
  | rxPayload
  | awaitCkHi
  | awaitCkLo
  deriving DecidableEq, Repr

/-- The causes of a fault of the block (R107). -/
inductive Cause where
  /-- The word names no operation (R65). Raised for any word; safe. -/
  | illegalOperation
  /-- PROCESS with `S.bound` = 0 (R74). Raised by PROCESS; safe. -/
  | notInitialised
  /-- INIT with `cap` > `BUF_SIZE` (R73). Raised by INIT; safe. -/
  | capacityExceedsBuffer
  /-- A read with `S.frame_valid` = 0 (R96, R97). Raised by PARSE and PARSE_SHORT; safe. -/
  | noValidFrame
  /-- PARSE with `S.len` ≠ 26 (R96). Raised by PARSE; safe. -/
  | payloadLength
  deriving DecidableEq, Repr

/-- The record `S.fault` holds: the cause and the operation word that raised it (R29, R108). -/
structure FaultRecord where
  cause : Cause
  word : Word
  deriving DecidableEq, Repr

/-- A MeasurementRecord: 14 fields, in the order of R95. -/
structure MeasurementRecord where
  concPM1_0_CF1 : Half
  concPM2_5_CF1 : Half
  concPM10_0_CF1 : Half
  concPM1_0_amb : Half
  concPM2_5_amb : Half
  concPM10_0_amb : Half
  rawBin0 : Half
  rawBin1 : Half
  rawBin2 : Half
  rawBin3 : Half
  rawBin4 : Half
  rawBin5 : Half
  version : Byte
  errorCode : Byte
  deriving DecidableEq, Repr

/-- What an operation returns to the host (R122). -/
inductive Result where
  /-- INIT's `()`. -/
  | unit
  /-- PROCESS's done bit. -/
  | done (bit : Bool)
  /-- PARSE's record. -/
  | record (rec : MeasurementRecord)
  /-- PARSE_SHORT's 16-bit value. -/
  | value (v : Half)
  /-- ENCODE's byte list. -/
  | bytes (frame : List Byte)
  /-- `FAULT(cause)` in place of a normal result (R108, R109). -/
  | fault (cause : Cause)
  deriving DecidableEq, Repr

/-- The FrameBuffer as a list of written bytes (offset, byte), offsets strictly rising. An offset that is not listed is
unwritten and holds no value (R42). -/
abbrev Memory := List Host.Cell

/-- Everything the model holds of one instance and of its host. -/
structure State where
  /-- `LEN_MODE`, `HDR_RESYNC`, `BUF_SIZE` (R9 to R11); no operation writes it (log entry 1). -/
  config : Config
  /-- `S.state` (R20). -/
  state : ParseState
  /-- `S.sum` (R22). -/
  sum : Half
  /-- `S.chk` (R23). -/
  chk : Half
  /-- `S.len` (R24). -/
  len : Half
  /-- `S.idx` (R25). -/
  idx : Half
  /-- `S.cap` (R26). -/
  cap : Half
  /-- `S.bound` (R27). -/
  bound : Bool
  /-- `S.frame_valid` (R28). -/
  frameValid : Bool
  /-- `S.fault` (R29); `none` is NONE. -/
  fault : Option FaultRecord
  /-- The FrameBuffer (R38, R42). -/
  buf : Memory
  /-- The model's own: the words the host has still to issue, the next one first (R121, R122; log entry 3). -/
  pending : List Word
  /-- The model's own: the index of the next operation in the host's stream (R31). -/
  index : Nat
  /-- The model's own: the results returned so far, oldest first, the observation of the run (R122; log entry 4). -/
  results : List Result
  deriving DecidableEq, Repr

/-- Where the model itself stops. Neither is a fault of the block (those are `Cause`, recorded in a next state); neither
is reachable from reset (R36, R42, R49; log entry 7). -/
inductive Fault where
  /-- Raised by PARSE and PARSE_SHORT on reading the unwritten FrameBuffer byte at `offset` (R42). Safe: the model stops. -/
  | unwrittenByte (offset : Nat)
  /-- Raised by PROCESS, PARSE and PARSE_SHORT on an access at `offset` ≥ `BUF_SIZE`, where the FrameBuffer has no byte
  (R38, R49). Safe: the model stops. -/
  | offsetOutsideBuffer (offset : Nat)
  deriving DecidableEq, Repr

/-- Reasons to answer no meaning. No operation of this model is refused. -/
inductive Refusal where
  /-- The instruction has no meaning yet. Raised by no arm of `exec`; safe. -/
  | notModelled (mnemonic : String)
  deriving DecidableEq, Repr

/-- Power-on reset of an instance constructed with `c`: the values of R37, the configuration as constructed, and a run
that has not begun (R123). -/
def State.powerOn (c : Config) : State :=
  { config := c
    state := .awaitH1
    sum := 0
    chk := 0
    len := 0
    idx := 0
    cap := 0
    bound := false
    frameValid := false
    fault := none
    buf := []
    pending := []
    index := 0
    results := [] }

/-- The machine right after reset (R37, R123), for the configuration `Config.vectors` (DESIGN CHOICE, log entry 2). -/
def State.reset : State := State.powerOn Config.vectors

end Sys2Proof.Machine
end

