-- ==== Sys2Proof/Machine/Operands.lean ====
section
/-! DEFINITION. The protocol's constants (spec/00_scope.md R12), the byte and 16-bit operand forms (R14, R15) and the
codes the spec names its enumerations by (spec/10_state.md R20, spec/60_exceptions.md R107). -/

namespace Sys2Proof.Machine

/-! ## Constants (R12) -/

/-- `MAGIC1`. -/
def magic1 : Byte := 0x42

/-- `MAGIC2`. -/
def magic2 : Byte := 0x4D

/-- `CK_ALLOW`: the checksum bytes the length field counts. -/
def ckAllow : Half := 2

/-- `MEAS_LEN`: the payload length of a full measurement frame. -/
def measLen : Half := 26

/-- `SHORT_LEN`: the payload length PARSE_SHORT decodes. -/
def shortLen : Half := 2

/-- `CMD_LEN`: the length of a command frame. -/
def cmdLen : Half := 7

/-! ## Operand forms (R14, R15, R43) -/

/-- `zext16(b)` (R15). -/
def zext16 (b : Byte) : Half := b.setWidth 16

/-- `{hi, lo}`, the big-endian pair `hi·256 + lo` (R14, R43). -/
def bePair (hi lo : Byte) : Half := hi ++ lo

/-- `v[15:8]` (R14). -/
def hiByte (v : Half) : Byte := v.extractLsb' 8 8

/-- `v[7:0]` (R14). -/
def loByte (v : Half) : Byte := v.extractLsb' 0 8

/-- `zext16(b) << 8`, the high half of a 16-bit value (R15, R80, R83). -/
def highPart (b : Byte) : Half := zext16 b <<< 8

/-- The sum of a byte list modulo 2^16 (R15): an additive checksum (R85, R100). -/
def byteSum : List Byte → Half
  | [] => 0
  | b :: bs => zext16 b + byteSum bs

/-! ## Codes -/

/-- The 3-bit code of a parse position (R20); no operation makes it visible. -/
def ParseState.code : ParseState → BitVec 3
  | .awaitH1 => 0
  | .awaitH2 => 1
  | .awaitLen => 2
  | .awaitLenHi => 3
  | .awaitLenLo => 4
  | .rxPayload => 5
  | .awaitCkHi => 6
  | .awaitCkLo => 7

/-- The code of a fault cause (R107). -/
def Cause.code : Cause → Nat
  | .illegalOperation => 1
  | .notInitialised => 2
  | .capacityExceedsBuffer => 3
  | .noValidFrame => 4
  | .payloadLength => 5

end Sys2Proof.Machine
end

