-- ==== Sys2Proof/Machine/Ops.lean ====
section
/-! DEFINITION. The operations every meaning shares: one byte of the FrameBuffer (spec/20_memory.md R38 to R47), the
result of an operation (spec/60_exceptions.md R122), raising a fault and power-on reset (R108, R109, R123), and taking the
host's next word (R121, spec/10_state.md R31). -/

namespace Sys2Proof.Machine

/-- The outcome of one operation. -/
abbrev Outcome := Host.Outcome State Fault Refusal

/-! ## The FrameBuffer as a list of written bytes (R38, R42) -/

/-- The byte at offset `a`, or `none` where nothing has been written (R42). -/
def Memory.read : Memory → Nat → Option Byte
  | [], _ => none
  | (k, v) :: rest, a => if a = k then some v else Memory.read rest a

/-- The memory with `v` at offset `a`, its offsets still strictly rising. -/
def Memory.write : Memory → Nat → Byte → Memory
  | [], a, v => [(a, v)]
  | (k, x) :: rest, a, v =>
    if a < k then (a, v) :: (k, x) :: rest
    else if a = k then (a, v) :: rest
    else (k, x) :: Memory.write rest a v

/-- Every listed offset is above `lo`, and the offsets rise strictly. -/
def Memory.risesAbove (lo : Nat) : Memory → Bool
  | [] => true
  | (k, _) :: rest => decide (lo < k) && Memory.risesAbove k rest

/-- The canonical form: offsets strictly rising. An unlisted offset reads as no value (R42), which no entry can equal. -/
def Memory.wf : Memory → Bool
  | [] => true
  | (k, _) :: rest => Memory.risesAbove k rest

/-! ## FrameBuffer accesses (R16, R46) -/

/-- `MemRead(a, 1)`: a byte of the FrameBuffer; an unwritten byte has no value to give (R42). -/
def memRead1 (s : State) (a : Nat) : Except Fault Byte :=
  if s.config.bufSize ≤ a then .error (.offsetOutsideBuffer a)
  else match s.buf.read a with
    | none => .error (.unwrittenByte a)
    | some v => .ok v

/-- `MemRead(a, 2)` = `{Buf[a], Buf[a+1]}` (R16, R45). -/
def memRead2 (s : State) (a : Nat) : Except Fault Half :=
  match memRead1 s a with
  | .error f => .error f
  | .ok hi =>
    match memRead1 s (a + 1) with
    | .error f => .error f
    | .ok lo => .ok (bePair hi lo)

/-- `MemWrite(a, 1, v)` (R16); the FrameBuffer has no offset at or above `BUF_SIZE` (R38). -/
def memWrite1 (a : Nat) (v : Byte) (s : State) : Except Fault State :=
  if s.config.bufSize ≤ a then .error (.offsetOutsideBuffer a)
  else .ok { s with buf := s.buf.write a v }

/-! ## Results, faults and reset -/

/-- `return r`: the result the host receives (R16, R122). -/
def respond (r : Result) (s : State) : State :=
  { s with results := s.results ++ [r] }

/-- `raise Fault(cause)` during an operation with word `w` (R108): `S.fault` records both, nothing else of the block
changes, and the result is `FAULT(cause)`. The block has no other trap entry (R113). -/
def raiseFault (cause : Cause) (w : Word) (s : State) : State :=
  respond (.fault cause) { s with fault := some { cause := cause, word := w } }

/-- An operation on an instance: while a fault is recorded, every operation changes nothing and returns `FAULT` with the
recorded cause (R109), before any check of its own (R110). -/
def operate (s : State) (body : Outcome) : Outcome :=
  match s.fault with
  | some f => .next (respond (.fault f.cause) s)
  | none => body

/-- A word that names no operation raises ILLEGAL_OPERATION and has no other effect (R65, R107). -/
def illegalWord (w : Word) (s : State) : Outcome :=
  operate s (.next (raiseFault .illegalOperation w s))

/-- Power-on reset of this instance: the only way on after a fault (R114, R123). There is no return from a fault. -/
def powerOnReset (s : State) : State := State.powerOn s.config

/-! ## The host's stream of words (R31, R121) -/

/-- The host issues `w` as the next word. -/
def issue (w : Word) (s : State) : State := { s with pending := w :: s.pending }

/-- The word the host issues next, and the state once it is issued: every operation advances the index by 1 (R31).
`none` while the host has issued nothing. -/
def takeWord (s : State) : Option (Word × State) :=
  match s.pending with
  | [] => none
  | w :: rest => some (w, { s with pending := rest, index := s.index + 1 })

end Sys2Proof.Machine
end

