-- ==== Sys2Proof/Machine/CommandEncoder.lean ====
section
/-! DEFINITION. The CommandEncoder's operation ENCODE (spec/43_command_encoder.md R100 to R105). -/

namespace Sys2Proof.Machine

/-- The first five bytes of a command frame, in line order (R100). -/
def commandBody (cmd : Byte) (data : Half) : List Byte :=
  [magic1, magic2, cmd, hiByte data, loByte data]

/-- The checksum of a command frame: the additive sum of its first five bytes (R100). -/
def commandChecksum (cmd : Byte) (data : Half) : Half := byteSum (commandBody cmd data)

/-- The result of ENCODE: the command frame, or the empty list for a caller's buffer below 7 bytes (R101, R102). -/
def commandFrame (cmd : Byte) (data cap : Half) : List Byte :=
  if cap < cmdLen then []
  else commandBody cmd data ++ [hiByte (commandChecksum cmd data), loByte (commandChecksum cmd data)]

/-- ENCODE (R101): it reads and writes no field of `S` and needs no INIT. -/
def execEncode (cmd : Byte) (data cap : Half) (s : State) : Outcome :=
  operate s <| .next (respond (.bytes (commandFrame cmd data cap)) s)

end Sys2Proof.Machine
end

