-- ==== Sys2Proof/Machine/Flags.lean ====
section
/-! DEFINITION. The tests that decide the done bit and with it `S.frame_valid`, the only status flag (spec/10_state.md R28),
and whether a length field is accepted (spec/41_frame_decoder.md R88). -/

namespace Sys2Proof.Machine

/-- The done bit of the second checksum byte: `S.chk == S.sum` (R23, R84). -/
def checksumMatches (chk sum : Half) : Bool := decide (chk = sum)

/-- `LEN1` accepts the length byte `b` iff `2 ≤ b ≤ S.cap`: the test is on the length byte itself (R79, R88). -/
def len1Accepts (cap : Half) (b : Byte) : Bool :=
  decide (ckAllow ≤ zext16 b) && decide (zext16 b ≤ cap)

/-- `LEN2` accepts the length value `l` iff `2 ≤ l` and `l - 2 ≤ S.cap`: the test is on the payload length (R81, R88). -/
def len2Accepts (cap l : Half) : Bool :=
  decide (ckAllow ≤ l) && decide (l - ckAllow ≤ cap)

end Sys2Proof.Machine
end

