-- ==== Sys2Proof/Machine/FrameDecoder.lean ====
section
/-! DEFINITION. The FrameDecoder's operations INIT and PROCESS (spec/41_frame_decoder.md R72 to R93), with one step per
row of the source's transition table (R75 to R84). -/

namespace Sys2Proof.Machine

/-! ## INIT -/

/-- The writes of INIT (R73). The FrameBuffer keeps its bytes (R41). -/
def bindCapacity (cap : Half) (s : State) : State :=
  { s with state := .awaitH1, sum := 0, chk := 0, len := 0, idx := 0, cap := cap, bound := true, frameValid := false }

/-- INIT (R73). -/
def execInit (cap : Half) (s : State) : Outcome :=
  operate s <|
    if s.config.bufSize < cap.toNat then .next (raiseFault .capacityExceedsBuffer (encode (.init cap)) s)
    else .next (respond .unit (bindCapacity cap s))

/-! ## The per-state steps of PROCESS -/

/-- `S.sum <- S.sum +16 zext16(b)` (R15, R22). -/
def addToSum (b : Byte) (s : State) : State := { s with sum := s.sum + zext16 b }

/-- AWAIT_H1 (R75): the sum is set to the byte whether or not it matches. -/
def stepH1 (b : Byte) (s : State) : State :=
  { s with sum := zext16 b, state := if b = magic1 then .awaitH2 else .awaitH1 }

/-- AWAIT_H2 (R76 to R78). -/
def stepH2 (b : Byte) (s : State) : State :=
  if b = magic2 then
    match s.config.lenMode with
    | .len1 => { addToSum b s with state := .awaitLen }
    | .len2 => { addToSum b s with state := .awaitLenHi }
  else
    match s.config.hdrResync with
    | .discard => { addToSum b s with state := .awaitH1 }
    | .reprocess => stepH1 b (addToSum b s)

/-- AWAIT_LEN (R79): on rejection `len` and `idx` keep their values. -/
def stepLen (b : Byte) (s : State) : State :=
  if len1Accepts s.cap b then
    { addToSum b s with len := zext16 b - ckAllow, idx := 0, state := .rxPayload }
  else { addToSum b s with state := .awaitH1 }

/-- AWAIT_LEN_HI (R80). -/
def stepLenHi (b : Byte) (s : State) : State :=
  { addToSum b s with len := highPart b, state := .awaitLenLo }

/-- AWAIT_LEN_LO (R81). Before this step `len[7:0]` = 0 in every reachable state, so the addition has no carry;
DEDUCED for the others, log entry 8. -/
def stepLenLo (b : Byte) (s : State) : State :=
  let l := s.len + zext16 b
  if len2Accepts s.cap l then
    { addToSum b s with len := l - ckAllow, idx := 0, state := .rxPayload }
  else { addToSum b s with len := l - ckAllow, state := .awaitH1 }

/-- The second test of RX_PAYLOAD (R82), made in the same step as the first. -/
def closePayload (s : State) : State :=
  { s with state := if s.idx = s.len then .awaitCkHi else s.state }

/-- RX_PAYLOAD (R82). With `len` = 0 the byte is summed and not stored (R87). -/
def stepPayload (b : Byte) (s : State) : Except Fault State :=
  if s.idx < s.len then
    match memWrite1 s.idx.toNat b (addToSum b s) with
    | .error f => .error f
    | .ok s' => .ok (closePayload { s' with idx := s.idx + 1 })
  else .ok (closePayload (addToSum b s))

/-- AWAIT_CK_HI (R83): checksum bytes are not summed. -/
def stepCkHi (b : Byte) (s : State) : State :=
  { s with chk := highPart b, state := .awaitCkLo }

/-- AWAIT_CK_LO (R84): back to AWAIT_H1 whether or not the checksum matches, with the done bit. Before this step
`chk[7:0]` = 0 in every reachable state; DEDUCED for the others, log entry 8. -/
def stepCkLo (b : Byte) (s : State) : State × Bool :=
  let chk := s.chk + zext16 b
  ({ s with chk := chk, state := .awaitH1 }, checksumMatches chk s.sum)

/-! ## PROCESS -/

/-- The case distinction of PROCESS on `S.state` (R74), with the done bit. -/
def processByte (b : Byte) (s : State) : Except Fault (State × Bool) :=
  match s.state with
  | .awaitH1 => .ok (stepH1 b s, false)
  | .awaitH2 => .ok (stepH2 b s, false)
  | .awaitLen => .ok (stepLen b s, false)
  | .awaitLenHi => .ok (stepLenHi b s, false)
  | .awaitLenLo => .ok (stepLenLo b s, false)
  | .rxPayload =>
    match stepPayload b s with
    | .error f => .error f
    | .ok s' => .ok (s', false)
  | .awaitCkHi => .ok (stepCkHi b s, false)
  | .awaitCkLo => .ok (stepCkLo b s)

/-- PROCESS (R74). `S.frame_valid` is the done bit of every PROCESS (R28). -/
def execProcess (b : Byte) (s : State) : Outcome :=
  operate s <|
    if s.bound = false then .next (raiseFault .notInitialised (encode (.process b)) s)
    else
      match processByte b { s with frameValid := false } with
      | .error f => .fault f
      | .ok (s', done) => .next (respond (.done done) { s' with frameValid := done })

end Sys2Proof.Machine
end

