-- ==== Sys2Proof/Machine/MeasurementExtractor.lean ====
section
/-! DEFINITION. The MeasurementExtractor's operations PARSE and PARSE_SHORT (spec/42_measurement_extractor.md R94 to R99). -/

namespace Sys2Proof.Machine

/-! ## The record layout (R95) -/

/-- The 16-bit fields of the layout with their offsets, as a declarative list (R95). -/
def halfLayout : List (Nat × (MeasurementRecord → Half)) :=
  [(0, (·.concPM1_0_CF1)), (2, (·.concPM2_5_CF1)), (4, (·.concPM10_0_CF1)),
   (6, (·.concPM1_0_amb)), (8, (·.concPM2_5_amb)), (10, (·.concPM10_0_amb)),
   (12, (·.rawBin0)), (14, (·.rawBin1)), (16, (·.rawBin2)),
   (18, (·.rawBin3)), (20, (·.rawBin4)), (22, (·.rawBin5))]

/-- The byte fields of the layout with their offsets (R95). -/
def byteLayout : List (Nat × (MeasurementRecord → Byte)) :=
  [(24, (·.version)), (25, (·.errorCode))]

/-- The big-endian bytes of a 16-bit value, high byte first (R43). -/
def halfBytes (v : Half) : List Byte := [hiByte v, loByte v]

/-- The 26 payload bytes that carry a record (R99), in the order of the layout. -/
def recordBytes (r : MeasurementRecord) : List Byte :=
  (halfLayout.map fun p => halfBytes (p.2 r)).flatten ++ byteLayout.map fun p => p.2 r

/-! ## PARSE -/

/-- The fourteen reads of PARSE, in the order of R96. -/
def readRecord (s : State) : Except Fault MeasurementRecord := do
  let concPM1_0_CF1 ← memRead2 s 0
  let concPM2_5_CF1 ← memRead2 s 2
  let concPM10_0_CF1 ← memRead2 s 4
  let concPM1_0_amb ← memRead2 s 6
  let concPM2_5_amb ← memRead2 s 8
  let concPM10_0_amb ← memRead2 s 10
  let rawBin0 ← memRead2 s 12
  let rawBin1 ← memRead2 s 14
  let rawBin2 ← memRead2 s 16
  let rawBin3 ← memRead2 s 18
  let rawBin4 ← memRead2 s 20
  let rawBin5 ← memRead2 s 22
  let version ← memRead1 s 24
  let errorCode ← memRead1 s 25
  return { concPM1_0_CF1, concPM2_5_CF1, concPM10_0_CF1, concPM1_0_amb, concPM2_5_amb, concPM10_0_amb,
           rawBin0, rawBin1, rawBin2, rawBin3, rawBin4, rawBin5, version, errorCode }

/-- PARSE (R96): it writes nothing of the block. -/
def execParse (s : State) : Outcome :=
  operate s <|
    if s.frameValid = false then .next (raiseFault .noValidFrame (encode .parse) s)
    else if s.len ≠ measLen then .next (raiseFault .payloadLength (encode .parse) s)
    else
      match readRecord s with
      | .error f => .fault f
      | .ok r => .next (respond (.record r) s)

/-! ## PARSE_SHORT -/

/-- PARSE_SHORT (R97): 0x0000 unless the payload has exactly 2 bytes. -/
def execParseShort (s : State) : Outcome :=
  operate s <|
    if s.frameValid = false then .next (raiseFault .noValidFrame (encode .parseShort) s)
    else if s.len ≠ shortLen then .next (respond (.value 0) s)
    else
      match memRead2 s 0 with
      | .error f => .fault f
      | .ok v => .next (respond (.value v) s)

end Sys2Proof.Machine
end

