-- ==== Sys2Proof/Machine/Dispatch.lean ====
section
/-! DEFINITION. One arm per operation of spec/opcode_table.json: what it does to the state when the host issues it. -/

namespace Sys2Proof.Machine

/-- The meaning of an operation (R17). -/
def exec (i : Instr) (s : State) : Host.Outcome State Fault Refusal :=
  match i with
  | .init cap => Sys2Proof.Machine.execInit cap s
  | .process b => Sys2Proof.Machine.execProcess b s
  | .parse => Sys2Proof.Machine.execParse s
  | .parseShort => Sys2Proof.Machine.execParseShort s
  | .encode cmd data cap => Sys2Proof.Machine.execEncode cmd data cap s

end Sys2Proof.Machine
end

