-- ==== Sys2Proof/Machine/Step.lean ====
section
/-! DEFINITION. One step: the block takes the host's next word, decodes it and executes it (spec/60_exceptions.md R121,
spec/30_encoding.md R68). -/

namespace Sys2Proof.Machine

/-- One step. With no word issued the block waits and nothing changes (R124, R130; log entry 5). -/
def step (s : State) : Host.Outcome State Fault Refusal :=
  match takeWord s with
  | none => .next s
  | some (w, s') =>
    match decode w with
    | .error _ => illegalWord w s'
    | .ok i => exec i s'

/-- `s` with the word the host issues next (log entries 3 and 11): the very next step takes it. -/
def State.withFetchWord (s : State) (nbits w : Nat) : State := issue (wordOfBits nbits w) s

end Sys2Proof.Machine
end

