-- ==== Sys2Proof/WellFormed.lean ====
section
/-! DEFINITION. What the spec requires of a configuration (spec/00_scope.md R11) and of a source line (spec/30_encoding.md
R71). `Instr` needs no check of its own: its operands are typed at the width of their fields, so every term of it is
an operation some word spells. -/

namespace Sys2Proof

/-- R11: `1 ≤ BUF_SIZE ≤ 65535`. -/
def Config.wf (c : Config) : Bool :=
  decide (1 ≤ c.bufSize) && decide (c.bufSize ≤ 65535)

/-- R71: a byte or command literal is 0 to 255. -/
def byteLiteral (n : Nat) : Bool := decide (n ≤ 255)

/-- R71: a data or capacity literal is 0 to 65535. -/
def halfLiteral (n : Nat) : Bool := decide (n ≤ 65535)

/-- The literals of a line are in range (R71); a FEED has at least one byte (R70: `n ≥ 0` names the bytes `b0` to `bn`). -/
def AsmLine.wf : AsmLine → Bool
  | .init cap => halfLiteral cap
  | .proc b => byteLiteral b
  | .parse => true
  | .parseShort => true
  | .encode cmd data cap => byteLiteral cmd && halfLiteral data && halfLiteral cap
  | .feed bytes => !bytes.isEmpty && bytes.all byteLiteral

end Sys2Proof
end

