-- ==== Sys2Proof/Machine/Assembler.lean ====
section
/-! DEFINITION. The assembler (spec/30_encoding.md R69 to R71): a source line to operation words. What R69 leaves to the
reader of a line (white space, blank lines, the case of a hexadecimal digit) is log entry 13. -/

namespace Sys2Proof.Machine

/-! ## From a line to words -/

/-- The operations a line stands for; FEED is one PROCESS per byte, in order (R70). -/
def expandLine : AsmLine → List Instr
  | .init cap => [.init (BitVec.ofNat 16 cap)]
  | .proc b => [.process (BitVec.ofNat 8 b)]
  | .parse => [.parse]
  | .parseShort => [.parseShort]
  | .encode cmd data cap => [.encode (BitVec.ofNat 8 cmd) (BitVec.ofNat 16 data) (BitVec.ofNat 16 cap)]
  | .feed bytes => bytes.map fun b => .process (BitVec.ofNat 8 b)

/-- The words of a line, or `none` where a literal is out of range, "because no word spells it" (R71). -/
def assemble (l : AsmLine) : Option (List Word) :=
  if l.wf then some ((expandLine l).map encode) else none

/-! ## From characters to a line (R69, R71) -/

/-- A blank between the parts of a line. -/
def isBlank (c : Char) : Bool := c == ' ' || c == '\t'

/-- `cs` without the blanks at its ends. -/
def trimBlanks (cs : List Char) : List Char :=
  ((cs.dropWhile isBlank).reverse.dropWhile isBlank).reverse

/-- The value of a digit in base 16. -/
def digitValue (c : Char) : Option Nat :=
  if '0' ≤ c ∧ c ≤ '9' then some (c.toNat - '0'.toNat)
  else if 'a' ≤ c ∧ c ≤ 'f' then some (c.toNat - 'a'.toNat + 10)
  else if 'A' ≤ c ∧ c ≤ 'F' then some (c.toNat - 'A'.toNat + 10)
  else none

/-- The number a run of digits spells in `base`, after the value `acc` of the digits before it. -/
def digitsValue (base : Nat) : Nat → List Char → Option Nat
  | acc, [] => some acc
  | acc, c :: cs =>
    match digitValue c with
    | none => none
    | some d => if d < base then digitsValue base (acc * base + d) cs else none

/-- An operand literal: hexadecimal after `0x`, else decimal (R71). -/
def literalValue : List Char → Option Nat
  | [] => none
  | ['0', 'x'] => none
  | '0' :: 'x' :: cs => digitsValue 16 0 cs
  | cs => digitsValue 10 0 cs

/-- The parts between commas (R69). -/
def splitCommas : List Char → List (List Char)
  | [] => [[]]
  | c :: cs =>
    match splitCommas cs with
    | [] => [[c]]
    | part :: parts => if c = ',' then [] :: part :: parts else (c :: part) :: parts

/-- The operand literals after a mnemonic. -/
def operandValues (cs : List Char) : Option (List Nat) :=
  if trimBlanks cs = [] then some [] else (splitCommas cs).mapM fun part => literalValue (trimBlanks part)

/-- The line that a mnemonic, in upper case, and its operands spell (R69, R70). -/
def lineOf (mnemonic : List Char) (operands : List Nat) : Option AsmLine :=
  if mnemonic = ['I', 'N', 'I', 'T'] then
    match operands with
    | [cap] => some (.init cap)
    | _ => none
  else if mnemonic = ['P', 'R', 'O', 'C'] then
    match operands with
    | [b] => some (.proc b)
    | _ => none
  else if mnemonic = ['P', 'A', 'R', 'S', 'E'] then
    match operands with
    | [] => some .parse
    | _ => none
  else if mnemonic = ['P', 'A', 'R', 'S', 'E', '_', 'S', 'H', 'O', 'R', 'T'] then
    match operands with
    | [] => some .parseShort
    | _ => none
  else if mnemonic = ['E', 'N', 'C', 'O', 'D', 'E'] then
    match operands with
    | [cmd, data, cap] => some (.encode cmd data cap)
    | _ => none
  else if mnemonic = ['F', 'E', 'E', 'D'] then
    match operands with
    | [] => none
    | bytes => some (.feed bytes)
  else none

/-- One operation per line; a comment starts with `;` (R69). -/
def parseLine (cs : List Char) : Option AsmLine :=
  let body := trimBlanks (cs.takeWhile (· ≠ ';'))
  match operandValues (body.dropWhile (!isBlank ·)) with
  | none => none
  | some operands => lineOf (body.takeWhile (!isBlank ·)) operands

/-- The words of a line of source text. -/
def assembleText (cs : List Char) : Option (List Word) :=
  match parseLine cs with
  | none => none
  | some l => assemble l

end Sys2Proof.Machine
end

