-- ==== Sys2Proof/Machine/Channels.lean ====
section
/-! DEFINITION. Several sensor channels, one independent instance each (spec/60_exceptions.md R118; log entry 12). -/

namespace Sys2Proof.Machine

/-- One step of the instance of channel `k`; where no instance serves `k`, nothing changes. -/
def stepChannel (k : Nat) (cs : List State) : Host.Outcome (List State) Fault Refusal :=
  match cs[k]? with
  | none => .next cs
  | some s =>
    match step s with
    | .next t => .next (cs.set k t)
    | .fault f => .fault f
    | .refused r => .refused r

end Sys2Proof.Machine
end

