-- ==== Sys2Proof/Machine/Observe.lean ====
section
/-! DEFINITION. Runs and their observation (spec/60_exceptions.md R122), and a stream of bytes fed to PROCESS one by one
(spec/30_encoding.md R70, spec/20_memory.md R55). -/

namespace Sys2Proof.Machine

/-- `f` after an operation that answered a next state; a stop stays a stop. -/
def andThen (o : Outcome) (f : State → Outcome) : Outcome :=
  match o with
  | .next s => f s
  | .fault r => .fault r
  | .refused r => .refused r

/-- `n` steps. -/
def runSteps : Nat → State → Outcome
  | 0, s => .next s
  | n + 1, s => andThen (step s) (runSteps n)

/-- The run of the operation words `ws`, issued from the reset state of an instance constructed with `c` (R122). -/
def runWords (c : Config) (ws : List Word) : Outcome :=
  runSteps ws.length { State.powerOn c with pending := ws }

/-- The observation of a run: its results, one per word (R122). -/
def observation (c : Config) (ws : List Word) : Option (List Result) :=
  match runWords c ws with
  | .next s => some s.results
  | .fault _ => none
  | .refused _ => none

/-- One PROCESS per byte, in line order: what FEED expands to (R70). -/
def feed : List Byte → State → Outcome
  | [], s => .next s
  | b :: bs, s => andThen (exec (.process b) s) (feed bs)

end Sys2Proof.Machine
end

