-- ==== Sys2Proof/Safety.lean ====
section
/-! DEFINITION. What a good state and a good run are: the decoder's invariant (spec/10_state.md R36 and the rules it is
derived from), what a recorded fault says (spec/60_exceptions.md R107), and the premises of claims about the block
(R109: "no fault recorded"). -/

namespace Sys2Proof.Machine

/-! ## Premises -/

/-- No fault is recorded (R109). -/
def NoFault (s : State) : Prop := s.fault = none

/-- No fault is recorded and an INIT has bound a capacity (R27): the condition under which PROCESS consumes its byte. -/
def Ready (s : State) : Prop := s.fault = none ∧ s.bound = true

/-- Every FrameBuffer byte below `n` exists and has been written (R38, R42). -/
def WrittenBelow (s : State) (n : Nat) : Prop :=
  n ≤ s.config.bufSize ∧ ∀ a, a < n → ∃ v, s.buf.read a = some v

/-- The read window of R127 is open on a payload of `n` bytes: no fault is recorded, the last PROCESS returned 1 and
nothing has closed the window since, and the payload is there to be read. -/
def WindowOpen (s : State) (n : Half) : Prop :=
  s.fault = none ∧ s.frameValid = true ∧ s.len = n ∧ WrittenBelow s n.toNat

/-! ## Frames on the line -/

/-- `field` is a length field that announces a payload of `n` bytes (its value is `n + CK_ALLOW`, R12, R79, R81). -/
def Announces (m : LenMode) (field : List Byte) (n : Nat) : Prop :=
  match m, field with
  | .len1, [b] => b.toNat = n + 2
  | .len2, [hi, lo] => (bePair hi lo).toNat = n + 2
  | _, _ => False

/-- The largest payload whose length field an instance of the length mode accepts under the capacity `cap` is at least
`n` (R88): LEN1 tests the length byte, which is `n + 2`, LEN2 the payload length. -/
def Admits (m : LenMode) (cap : Half) (n : Nat) : Prop :=
  match m with
  | .len1 => n + 2 ≤ cap.toNat
  | .len2 => n ≤ cap.toNat

/-- The bytes of a frame that the checksum covers (R85): the header, the length field and the payload. -/
def coveredBytes (field payload : List Byte) : List Byte := magic1 :: magic2 :: (field ++ payload)

/-- The decoder takes the next byte as a first magic byte: in AWAIT_H1, and under REPROCESS in AWAIT_H2 too (R78, R89). -/
def HuntsForHeader (s : State) : Prop :=
  s.state = .awaitH1 ∨ (s.state = .awaitH2 ∧ s.config.hdrResync = .reprocess)

/-- The two magic bytes stand next to each other somewhere in the stream (R89). -/
def containsHeader : List Byte → Bool
  | [] => false
  | a :: rest => (decide (a = magic1) && decide (rest.head? = some magic2)) || containsHeader rest

/-! ## The invariant -/

/-- The parse positions in which a length field has been accepted (R36). -/
def ParseState.receiving : ParseState → Bool
  | .rxPayload => true
  | .awaitCkHi => true
  | .awaitCkLo => true
  | .awaitH1 => false
  | .awaitH2 => false
  | .awaitLen => false
  | .awaitLenHi => false
  | .awaitLenLo => false

/-- The parse positions an instance of a length mode can be in (R20). -/
def ParseState.allowed (m : LenMode) : ParseState → Bool
  | .awaitLen => decide (m = .len1)
  | .awaitLenHi => decide (m = .len2)
  | .awaitLenLo => decide (m = .len2)
  | .awaitH1 => true
  | .awaitH2 => true
  | .rxPayload => true
  | .awaitCkHi => true
  | .awaitCkLo => true

/-- What holds of every reachable state. R36 gives the bounds on `cap`, `len` and `idx`; R11, R20, R27, R28, R42, R81 and
R84 the rest. -/
structure Inv (s : State) : Prop where
  /-- R11. -/
  configWf : s.config.wf = true
  /-- R20: AWAIT_LEN only under LEN1, AWAIT_LEN_HI and AWAIT_LEN_LO only under LEN2. -/
  stateAllowed : s.state.allowed s.config.lenMode = true
  /-- R27, R28: before the first INIT the decoder is where reset left it and no frame has completed. -/
  unbound : s.bound = false → s.state = .awaitH1 ∧ s.frameValid = false
  /-- R36: `S.cap` ≤ `BUF_SIZE`. -/
  capFits : s.cap.toNat ≤ s.config.bufSize
  /-- R36: an accepted length fits the capacity and the index does not pass it. -/
  lenFits : s.state.receiving = true → s.len ≤ s.cap ∧ s.idx ≤ s.len
  /-- R36: in RX_PAYLOAD there is a slot to fill, or the payload is empty. -/
  payloadOpen : s.state = .rxPayload → s.idx < s.len ∨ (s.idx = 0 ∧ s.len = 0)
  /-- R36: in the checksum positions the payload is complete. -/
  payloadFull : s.state = .awaitCkHi ∨ s.state = .awaitCkLo → s.idx = s.len
  /-- R81: in AWAIT_LEN_LO only the high byte of the length has been read. -/
  lenLowZero : s.state = .awaitLenLo → loByte s.len = 0
  /-- R84: in AWAIT_CK_LO only the high byte of the checksum has been read. -/
  chkLowZero : s.state = .awaitCkLo → loByte s.chk = 0
  /-- R40, R42: the payload bytes received so far have been written. -/
  received : s.state.receiving = true → ∀ a, a < s.idx.toNat → ∃ v, s.buf.read a = some v
  /-- R28, R23, R42: while `S.frame_valid` = 1 the decoder is back in AWAIT_H1, the checksum matched, and every byte of
  the payload has been written within the capacity. -/
  validFrame : s.frameValid = true →
    s.state = .awaitH1 ∧ s.chk = s.sum ∧ s.len ≤ s.cap ∧ ∀ a, a < s.len.toNat → ∃ v, s.buf.read a = some v
  /-- The memory's canonical form. -/
  bufWf : s.buf.wf = true
  /-- R38: no byte is listed at or above `BUF_SIZE`. -/
  bufInside : ∀ a, s.config.bufSize ≤ a → s.buf.read a = none

/-! ## Recorded faults -/

/-- A fault record that R107 allows: the recorded word is one that can raise the recorded cause. -/
def FaultRecord.plausible (c : Config) (f : FaultRecord) : Prop :=
  match f.cause, decode f.word with
  | .illegalOperation, .error _ => True
  | .notInitialised, .ok (.process _) => True
  | .capacityExceedsBuffer, .ok (.init cap) => c.bufSize < cap.toNat
  | .noValidFrame, .ok .parse => True
  | .noValidFrame, .ok .parseShort => True
  | .payloadLength, .ok .parse => True
  | _, _ => False

/-- Whatever fault is recorded is one R107 allows. -/
def FaultsPlausible (s : State) : Prop :=
  ∀ f, s.fault = some f → f.plausible s.config

end Sys2Proof.Machine
end

