-- ==== Sys2Proof/Certificates/Slice0/Obligations.lean ====
section
/-! DEFINITION. The statements for the provers. Each docstring names the rule of spec/ it formalises. -/

open Sys2Proof Sys2Proof.Machine

/-! ## Encoding (spec/30_encoding.md) -/

/-- Decoding the word of an operation gives that operation back, with every operand at every value (R63, R68). -/
def Obligations.DecodeOfEncodeIsTheOperation : Prop :=
  ∀ i : Instr, decode (encode i) = .ok i

/-- A word that decodes to an operation is the word that spells it: no bit of a legal word is without meaning (R66). -/
def Obligations.LegalWordIsTheEncodingOfItsOperation : Prop :=
  ∀ (w : Word) (i : Instr), decode w = .ok i → encode i = w

/-- Exactly one row of the opcode map selects a word that decodes to an operation, its own row, and no row selects an
illegal word (the last sentence of R68). -/
def Obligations.ExactlyTheLegalWordsSelectOneRow : Prop :=
  ∀ w : Word,
    match decode w with
    | .ok i => opcodeTable.filter (·.selects w) = [opcodeRow i]
    | .error _ => opcodeTable.filter (·.selects w) = []

/-- R61 and R62: the reserved fields are 0 in every operation word, and so is every field the operation does not use.
ENCODE needs nothing more than R61. -/
def Obligations.ReservedAndUnusedFieldsMustBeZero : Prop :=
  ∀ w : Word,
    (rsv0Field w ≠ 0#8 ∨ rsv1Field w ≠ 0#8 → ∃ e, decode w = .error e) ∧
    (opcField w = 0x01#8 → w.extractLsb' 0 32 ≠ 0#32 → ∃ e, decode w = .error e) ∧
    (opcField w = 0x02#8 → w.extractLsb' 8 40 ≠ 0#40 → ∃ e, decode w = .error e) ∧
    (opcField w = 0x03#8 → w.extractLsb' 0 56 ≠ 0#56 → ∃ e, decode w = .error e) ∧
    (opcField w = 0x04#8 → w.extractLsb' 0 56 ≠ 0#56 → ∃ e, decode w = .error e) ∧
    (opcField w = 0x05#8 → rsv0Field w = 0#8 → rsv1Field w = 0#8 →
      decode w = .ok (.encode (cmdField w) (dataField w) (capField w)))

/-- R65: a word is illegal iff no row of the opcode map selects it; every word whose OPC is 0x00 or 0x06 to 0xFF is; and
on an instance with no recorded fault an illegal word raises ILLEGAL_OPERATION and does nothing else. -/
def Obligations.IllegalWordsAreThoseNoRowSelects : Prop :=
  ∀ w : Word,
    ((∃ e, decode w = .error e) ↔ ∀ r ∈ opcodeTable, r.selects w = false) ∧
    (opcField w = 0x00#8 ∨ 0x06#8 ≤ opcField w → ∃ e, decode w = .error e) ∧
    (∀ (s : State) (rest : List Word) (e : IllegalWord), s.fault = none → s.pending = w :: rest → decode w = .error e →
      step s = .next { s with
        pending := rest
        index := s.index + 1
        fault := some { cause := .illegalOperation, word := w }
        results := s.results ++ [.fault .illegalOperation] })

/-- A few words written out from R63 decode to the operation they stand for, and a few illegal ones do not. A sanity
statement. -/
def Obligations.SampleWordsDecode : Prop :=
  decode 0x0100002000000000 = .ok (.init 32) ∧
  decode 0x0200000000000042 = .ok (.process 0x42) ∧
  decode 0x0300000000000000 = .ok .parse ∧
  decode 0x0400000000000000 = .ok .parseShort ∧
  decode 0x0500001000E11234 = .ok (.encode 0xE1 0x1234 16) ∧
  decode 0x0600000000000000 = .error .noOperation ∧
  decode 0x0100000800010000 = .error .unusedField ∧
  decode 0x0500000701E10000 = .error .reservedField

/-! ## Steps (spec/10_state.md R31, spec/60_exceptions.md R121, R122) -/

/-- A step runs the decoded operation: it takes the host's next word, advances the index and executes. -/
def Obligations.StepRunsTheDecodedOperation : Prop :=
  ∀ (s : State) (w : Word) (rest : List Word) (i : Instr), s.pending = w :: rest → decode w = .ok i →
    step s = exec i { s with pending := rest, index := s.index + 1 }

/-- With no word issued nothing changes: the model's reading of R92, R124 and R130 (DEDUCED, log entry 5). -/
def Obligations.StepWithoutAWordChangesNothing : Prop :=
  ∀ s : State, s.pending = [] → step s = .next s

/-- R31: what comes next is the next operation the host issues, and every operation, one that faults included, advances
the index by exactly 1. -/
def Obligations.EveryOperationAdvancesTheIndexByOne : Prop :=
  ∀ (s t : State) (w : Word) (rest : List Word), s.pending = w :: rest → step s = .next t →
    t.pending = rest ∧ t.index = s.index + 1

/-- Every run of operation words from reset completes, under every configuration R11 allows, and its observation has one
result per word (R122). The runs start at reset because R122 defines a run so; `StepNeverStopsInAGoodState` is the
claim over all good states that this rests on. -/
def Obligations.RunObservesOneResultPerWord : Prop :=
  ∀ (c : Config) (ws : List Word), c.wf = true → ∃ rs, observation c ws = some rs ∧ rs.length = ws.length

/-! ## Reset (spec/10_state.md R37, spec/70_reset_and_hazards.md R123) -/

/-- Power-on reset gives every field of `S` and every FrameBuffer byte its value, clears the fault, and keeps the
configuration. The model's own fields are not part of this claim. -/
def Obligations.PowerOnResetGivesTheResetValues : Prop :=
  ∀ s : State,
    (powerOnReset s).state = .awaitH1 ∧ (powerOnReset s).sum = 0x0000 ∧ (powerOnReset s).chk = 0x0000 ∧
    (powerOnReset s).len = 0x0000 ∧ (powerOnReset s).idx = 0x0000 ∧ (powerOnReset s).cap = 0x0000 ∧
    (powerOnReset s).bound = false ∧ (powerOnReset s).frameValid = false ∧ (powerOnReset s).fault = none ∧
    (∀ a, (powerOnReset s).buf.read a = none) ∧ (powerOnReset s).config = s.config

/-- The invariant and the plausibility of recorded faults hold after reset, for every configuration R11 allows. -/
def Obligations.ResetStateIsGood : Prop :=
  ∀ c : Config, c.wf = true → Inv (State.powerOn c) ∧ FaultsPlausible (State.powerOn c)

/-! ## The invariant (spec/10_state.md R36) -/

/-- Every step keeps the invariant, from every state that has it. -/
def Obligations.StepKeepsTheInvariant : Prop :=
  ∀ s t : State, Inv s → step s = .next t → Inv t

/-- In a state with the invariant every step answers a next state: no read meets an unwritten byte and no access leaves
the FrameBuffer (R42, R49). -/
def Obligations.StepNeverStopsInAGoodState : Prop :=
  ∀ s : State, Inv s → ∃ t, step s = .next t

/-- Every step keeps what R107 says of a recorded fault: the recorded word is one that can raise the recorded cause. -/
def Obligations.StepKeepsRecordedFaultsPlausible : Prop :=
  ∀ s t : State, FaultsPlausible s → step s = .next t → FaultsPlausible t

/-! ## INIT (spec/41_frame_decoder.md R73) -/

/-- INIT of a capacity that fits the storage completes with the writes of R73 and no other, in any state, mid-frame too. -/
def Obligations.InitBindsTheCapacityAndRestarts : Prop :=
  ∀ (s : State) (cap : Half), s.fault = none → cap.toNat ≤ s.config.bufSize →
    exec (.init cap) s = .next { s with
      state := .awaitH1, sum := 0x0000, chk := 0x0000, len := 0x0000, idx := 0x0000, cap := cap
      bound := true, frameValid := false, results := s.results ++ [.unit] }

/-- The frame of INIT: it leaves the configuration, the host's words and every FrameBuffer byte unchanged (R41), adds
one result, and where it does not write the fields of R73 it changes no field of `S` but `fault`. -/
def Obligations.InitFrame : Prop :=
  ∀ (s t : State) (cap : Half), exec (.init cap) s = .next t →
    t.config = s.config ∧ t.pending = s.pending ∧ t.index = s.index ∧ (∀ a, t.buf.read a = s.buf.read a) ∧
    (∃ r, t.results = s.results ++ [r]) ∧
    (t.fault = s.fault ∨
      (s.fault = none ∧ t.fault = some { cause := .capacityExceedsBuffer, word := encode (.init cap) })) ∧
    (s.fault ≠ none ∨ s.config.bufSize < cap.toNat →
      t.state = s.state ∧ t.sum = s.sum ∧ t.chk = s.chk ∧ t.len = s.len ∧ t.idx = s.idx ∧ t.cap = s.cap ∧
      t.bound = s.bound ∧ t.frameValid = s.frameValid)

/-! ## PROCESS, one statement per decoder state (spec/41_frame_decoder.md R75 to R84) -/

/-- R75: in AWAIT_H1 the sum is set to the byte, and 0x42 alone moves the decoder to AWAIT_H2. -/
def Obligations.ProcessInAwaitH1 : Prop :=
  ∀ (s : State) (b : Byte), Ready s → s.state = .awaitH1 →
    exec (.process b) s = .next { s with
      sum := zext16 b, state := if b = 0x42 then .awaitH2 else .awaitH1
      frameValid := false, results := s.results ++ [.done false] }

/-- R76: in AWAIT_H2 the byte 0x4D is summed and moves the decoder to the length state of its mode. -/
def Obligations.ProcessSecondMagicByte : Prop :=
  ∀ s : State, Ready s → s.state = .awaitH2 →
    exec (.process 0x4D) s = .next { s with
      sum := s.sum + 0x004D, state := if s.config.lenMode = .len1 then .awaitLen else .awaitLenHi
      frameValid := false, results := s.results ++ [.done false] }

/-- R77: in AWAIT_H2 under DISCARD any other byte, 0x42 included, is summed and dropped. -/
def Obligations.ProcessDiscardsAHeaderMismatch : Prop :=
  ∀ (s : State) (b : Byte), Ready s → s.state = .awaitH2 → s.config.hdrResync = .discard → b ≠ 0x4D →
    exec (.process b) s = .next { s with
      sum := s.sum + zext16 b, state := .awaitH1, frameValid := false, results := s.results ++ [.done false] }

/-- R78: in AWAIT_H2 under REPROCESS any other byte is taken as a candidate first magic byte in the same PROCESS, which
returns 0. -/
def Obligations.ProcessReprocessesAHeaderMismatch : Prop :=
  ∀ (s : State) (b : Byte), Ready s → s.state = .awaitH2 → s.config.hdrResync = .reprocess → b ≠ 0x4D →
    exec (.process b) s = .next { s with
      sum := zext16 b, state := if b = 0x42 then .awaitH2 else .awaitH1
      frameValid := false, results := s.results ++ [.done false] }

/-- R79 and R88 for LEN1: the length byte is accepted iff `2 ≤ b ≤ S.cap`, giving a payload of `b - 2` bytes; else the
frame is abandoned. The value of `S.len` after a rejection is left open (93_implementation_defined.md U10). -/
def Obligations.ProcessInAwaitLen : Prop :=
  ∀ (s : State) (b : Byte), Ready s → s.state = .awaitLen →
    ∃ t, exec (.process b) s = .next t ∧
      t.sum = s.sum + zext16 b ∧ t.frameValid = false ∧ t.results = s.results ++ [.done false] ∧
      t.chk = s.chk ∧ t.cap = s.cap ∧ t.bound = s.bound ∧ t.fault = s.fault ∧ (∀ a, t.buf.read a = s.buf.read a) ∧
      (2 ≤ b.toNat ∧ b.toNat ≤ s.cap.toNat →
        t.state = .rxPayload ∧ t.len.toNat = b.toNat - 2 ∧ t.idx = 0x0000) ∧
      (b.toNat < 2 ∨ s.cap.toNat < b.toNat → t.state = .awaitH1 ∧ t.idx = s.idx)

/-- R80: in AWAIT_LEN_HI every byte is accepted as the high byte of the length. -/
def Obligations.ProcessInAwaitLenHi : Prop :=
  ∀ (s : State) (b : Byte), Ready s → s.state = .awaitLenHi →
    exec (.process b) s = .next { s with
      sum := s.sum + zext16 b, len := bePair b 0x00, state := .awaitLenLo
      frameValid := false, results := s.results ++ [.done false] }

/-- R81 and R88 for LEN2, where the high byte of the length has been read: the length value `L` is accepted iff `2 ≤ L`
and `L - 2 ≤ S.cap`, giving a payload of `L - 2` bytes; else the frame is abandoned. The value of `S.len` after a
rejection is left open (93_implementation_defined.md U10). -/
def Obligations.ProcessInAwaitLenLo : Prop :=
  ∀ (s : State) (hi b : Byte), Ready s → s.state = .awaitLenLo → s.len = bePair hi 0x00 →
    ∃ t, exec (.process b) s = .next t ∧
      t.sum = s.sum + zext16 b ∧ t.frameValid = false ∧ t.results = s.results ++ [.done false] ∧
      t.chk = s.chk ∧ t.cap = s.cap ∧ t.bound = s.bound ∧ t.fault = s.fault ∧ (∀ a, t.buf.read a = s.buf.read a) ∧
      (2 ≤ (bePair hi b).toNat ∧ (bePair hi b).toNat - 2 ≤ s.cap.toNat →
        t.state = .rxPayload ∧ t.len.toNat = (bePair hi b).toNat - 2 ∧ t.idx = 0x0000) ∧
      ((bePair hi b).toNat < 2 ∨ s.cap.toNat < (bePair hi b).toNat - 2 → t.state = .awaitH1 ∧ t.idx = s.idx)

/-- R82: in RX_PAYLOAD the byte is summed; while `idx < len` it is stored at `idx`, which is incremented; and in the same
step the decoder moves on iff `idx` has reached `len`. The storage must have the slot that is filled, as it has in every
reachable state (R36). -/
def Obligations.ProcessInRxPayload : Prop :=
  ∀ (s : State) (b : Byte), Ready s → s.state = .rxPayload → (s.idx < s.len → s.idx.toNat < s.config.bufSize) →
    ∃ t, exec (.process b) s = .next t ∧
      t.sum = s.sum + zext16 b ∧ t.frameValid = false ∧ t.results = s.results ++ [.done false] ∧
      t.chk = s.chk ∧ t.len = s.len ∧ t.cap = s.cap ∧ t.bound = s.bound ∧ t.fault = s.fault ∧
      (s.idx < s.len → t.idx.toNat = s.idx.toNat + 1 ∧
        ∀ a, t.buf.read a = if a = s.idx.toNat then some b else s.buf.read a) ∧
      (¬ s.idx < s.len → t.idx = s.idx ∧ ∀ a, t.buf.read a = s.buf.read a) ∧
      t.state = if t.idx = s.len then .awaitCkHi else .rxPayload

/-- R83: in AWAIT_CK_HI the byte becomes the high byte of the checksum and is not summed. -/
def Obligations.ProcessInAwaitCkHi : Prop :=
  ∀ (s : State) (b : Byte), Ready s → s.state = .awaitCkHi →
    exec (.process b) s = .next { s with
      chk := bePair b 0x00, state := .awaitCkLo, frameValid := false, results := s.results ++ [.done false] }

/-- R84: in AWAIT_CK_LO the byte completes the checksum, the done bit says whether it equals the sum, the decoder returns
to AWAIT_H1 in both cases with `len`, `idx` and the FrameBuffer as they were, and no PROCESS in any other state returns
1. -/
def Obligations.ProcessInAwaitCkLo : Prop :=
  (∀ (s : State) (hi b : Byte), Ready s → s.state = .awaitCkLo → s.chk = bePair hi 0x00 →
    exec (.process b) s = .next { s with
      chk := bePair hi b, state := .awaitH1, frameValid := decide (bePair hi b = s.sum)
      results := s.results ++ [.done (decide (bePair hi b = s.sum))] }) ∧
  (∀ (s t : State) (b : Byte), exec (.process b) s = .next t → t.results = s.results ++ [.done true] →
    s.state = .awaitCkLo)

/-! ## PROCESS as a whole -/

/-- The frame of PROCESS: the configuration, the capacity, `bound` and the host's words never change; the checksum
changes only in the checksum states, the length only in the length states, the index only where a length is accepted or
a byte stored, the sum not in the checksum states; and the only FrameBuffer byte that may change is the one at `idx`, in
RX_PAYLOAD while `idx < len` (R33, R40). -/
def Obligations.ProcessFrame : Prop :=
  ∀ (s t : State) (b : Byte), exec (.process b) s = .next t →
    t.config = s.config ∧ t.cap = s.cap ∧ t.bound = s.bound ∧ t.pending = s.pending ∧ t.index = s.index ∧
    (∃ r, t.results = s.results ++ [r]) ∧
    (t.fault = s.fault ∨
      (s.fault = none ∧ s.bound = false ∧
        t.fault = some { cause := .notInitialised, word := encode (.process b) })) ∧
    (s.state ≠ .awaitCkHi → s.state ≠ .awaitCkLo → t.chk = s.chk) ∧
    (s.state ≠ .awaitLen → s.state ≠ .awaitLenHi → s.state ≠ .awaitLenLo → t.len = s.len) ∧
    (s.state ≠ .awaitLen → s.state ≠ .awaitLenLo → s.state ≠ .rxPayload → t.idx = s.idx) ∧
    (s.state = .awaitCkHi ∨ s.state = .awaitCkLo → t.sum = s.sum) ∧
    (¬ Ready s → t.state = s.state ∧ t.sum = s.sum ∧ t.chk = s.chk ∧ t.len = s.len ∧ t.idx = s.idx ∧
      t.frameValid = s.frameValid) ∧
    (∀ a, ¬ (Ready s ∧ s.state = .rxPayload ∧ s.idx < s.len ∧ a = s.idx.toNat) → t.buf.read a = s.buf.read a)

/-- R40: PROCESS writes the FrameBuffer only in RX_PAYLOAD, at `idx`, while `idx < len`; so the payload bytes of one frame
go to offsets 0, 1, 2, … in arrival order. -/
def Obligations.PayloadBytesLandInArrivalOrder : Prop :=
  (∀ (s t : State) (b : Byte) (a : Nat), exec (.process b) s = .next t → t.buf.read a ≠ s.buf.read a →
    s.state = .rxPayload ∧ s.idx < s.len ∧ a = s.idx.toNat ∧ t.buf.read a = some b) ∧
  (∀ (s : State) (payload : List Byte), Inv s → Ready s → s.state = .rxPayload → s.idx = 0 →
    payload.length ≤ s.len.toNat →
    ∃ t, feed payload s = .next t ∧
      (∀ j, j < payload.length → t.buf.read j = payload[j]?) ∧
      (∀ a, payload.length ≤ a → t.buf.read a = s.buf.read a))

/-- R21: the next parse position of a PROCESS that consumes its byte is a function of `state`, `len`, `idx`, `cap`, the
byte, `LEN_MODE` and `HDR_RESYNC`; it exists in every good state. -/
def Obligations.NextParsePositionDependsOnNothingElse : Prop :=
  (∀ (s s' t t' : State) (b : Byte), Ready s → Ready s' →
    s.state = s'.state → s.len = s'.len → s.idx = s'.idx → s.cap = s'.cap →
    s.config.lenMode = s'.config.lenMode → s.config.hdrResync = s'.config.hdrResync →
    exec (.process b) s = .next t → exec (.process b) s' = .next t' → t.state = t'.state) ∧
  (∀ (s : State) (b : Byte), Inv s → ∃ t, exec (.process b) s = .next t)

/-- R27: `bound` is 0 from reset until the first INIT and 1 after it, PROCESS faults while it is 0, and no operation
clears it. -/
def Obligations.BoundIsSetByInitAndNeverCleared : Prop :=
  (∀ c : Config, (State.powerOn c).bound = false) ∧
  (∀ (s : State) (cap : Half), s.fault = none → cap.toNat ≤ s.config.bufSize →
    ∃ t, exec (.init cap) s = .next t ∧ t.bound = true) ∧
  (∀ (s : State) (b : Byte), s.fault = none → s.bound = false →
    exec (.process b) s = .next { s with
      fault := some { cause := .notInitialised, word := encode (.process b) }
      results := s.results ++ [.fault .notInitialised] }) ∧
  (∀ (s t : State) (i : Instr), exec i s = .next t → s.bound = true → t.bound = true) ∧
  (∀ (s t : State) (i : Instr), exec i s = .next t → s.bound = false → t.bound = true → ∃ cap, i = .init cap)

/-- R28: on every PROCESS that consumes its byte `frame_valid` becomes the done bit, INIT and reset clear it, PARSE,
PARSE_SHORT and ENCODE never write it, and the two reads fault while it is 0. -/
def Obligations.FrameValidIsTheLastDoneBit : Prop :=
  (∀ (s t : State) (b : Byte), Ready s → exec (.process b) s = .next t →
    t.results = s.results ++ [.done t.frameValid]) ∧
  (∀ (s : State) (cap : Half), s.fault = none → cap.toNat ≤ s.config.bufSize →
    ∃ t, exec (.init cap) s = .next t ∧ t.frameValid = false) ∧
  (∀ c : Config, (State.powerOn c).frameValid = false) ∧
  (∀ (s t : State) (i : Instr), exec i s = .next t →
    i = .parse ∨ i = .parseShort ∨ (∃ cmd data cap, i = .encode cmd data cap) → t.frameValid = s.frameValid) ∧
  (∀ (s : State) (i : Instr), s.fault = none → s.frameValid = false → i = .parse ∨ i = .parseShort →
    exec i s = .next { s with
      fault := some { cause := .noValidFrame, word := encode i }
      results := s.results ++ [.fault .noValidFrame] })

/-- R48: no operation writes a FrameBuffer byte at or above the capacity it finds. -/
def Obligations.BytesAboveTheCapacityAreNeverWritten : Prop :=
  ∀ (s t : State) (i : Instr) (a : Nat), Inv s → exec i s = .next t → s.cap.toNat ≤ a →
    t.buf.read a = s.buf.read a

/-! ## Frames on the line (spec/41_frame_decoder.md section 4) -/

/-- R85 and R91 (source property P3): a frame with an accepted length and a payload of at least one byte completes on its
last byte iff its checksum is the sum, modulo 2^16, of every byte from the first magic byte through the last payload
byte; every byte before it returns 0, and the payload stands in the FrameBuffer. -/
def Obligations.FrameCompletesIffItsChecksumIsTheSum : Prop :=
  ∀ (s : State) (field payload : List Byte) (ckHi ckLo : Byte), Inv s → Ready s → HuntsForHeader s →
    Announces s.config.lenMode field payload.length → Admits s.config.lenMode s.cap payload.length →
    1 ≤ payload.length →
    ∃ t, feed (coveredBytes field payload ++ [ckHi, ckLo]) s = .next t ∧
      t.results = s.results ++ List.replicate ((coveredBytes field payload).length + 1) (.done false) ++
        [.done (decide (bePair ckHi ckLo = byteSum (coveredBytes field payload)))] ∧
      t.state = .awaitH1 ∧ t.len.toNat = payload.length ∧
      t.frameValid = decide (bePair ckHi ckLo = byteSum (coveredBytes field payload)) ∧
      ∀ j, j < payload.length → t.buf.read j = payload[j]?

/-- R87: after an accepted length of 0 the decoder takes one byte more, adds it to the sum and does not store it; the two
bytes after that are the checksum. -/
def Obligations.EmptyPayloadTakesOneMoreByte : Prop :=
  ∀ (s : State) (field : List Byte) (x ckHi ckLo : Byte), Inv s → Ready s → HuntsForHeader s →
    Announces s.config.lenMode field 0 → Admits s.config.lenMode s.cap 0 →
    ∃ t, feed (coveredBytes field [] ++ [x, ckHi, ckLo]) s = .next t ∧
      t.results = s.results ++ List.replicate ((coveredBytes field []).length + 2) (.done false) ++
        [.done (decide (bePair ckHi ckLo = byteSum (coveredBytes field [x])))] ∧
      t.state = .awaitH1 ∧ t.len = 0x0000 ∧ ∀ a, t.buf.read a = s.buf.read a

/-- R88 and R90 (source property P2): a length field that announces a payload the capacity does not admit is rejected
with every result 0, the FrameBuffer as it was, and the decoder back in AWAIT_H1 for the next byte, under both policies. -/
def Obligations.OversizedLengthIsRejected : Prop :=
  ∀ (s : State) (field : List Byte) (n : Nat), Inv s → Ready s → HuntsForHeader s →
    Announces s.config.lenMode field n → ¬ Admits s.config.lenMode s.cap n →
    ∃ t, feed (coveredBytes field []) s = .next t ∧
      t.results = s.results ++ List.replicate (coveredBytes field []).length (.done false) ∧
      t.state = .awaitH1 ∧ Ready t ∧ ∀ a, t.buf.read a = s.buf.read a

/-- R89 (source property P1): a stream in which the two magic bytes never stand next to each other returns 0 on every
byte, writes nothing to the FrameBuffer, and leaves the decoder hunting: in AWAIT_H1, or in AWAIT_H2 after a 0x42. -/
def Obligations.NoiseNeverCompletesAFrame : Prop :=
  ∀ (s : State) (noise : List Byte), Ready s → s.state = .awaitH1 → containsHeader noise = false →
    ∃ t, feed noise s = .next t ∧
      t.results = s.results ++ List.replicate noise.length (.done false) ∧ Ready t ∧
      (t.state = .awaitH1 ∨ (t.state = .awaitH2 ∧ noise.getLast? = some 0x42)) ∧
      ∀ a, t.buf.read a = s.buf.read a

/-- R99 (source property P4): a record framed with its checksum and completed by PROCESS is what PARSE returns. -/
def Obligations.ParseRecoversTheFramedRecord : Prop :=
  ∀ (s : State) (field : List Byte) (r : MeasurementRecord), Inv s → Ready s → HuntsForHeader s →
    Announces s.config.lenMode field 26 → Admits s.config.lenMode s.cap 26 →
    ∃ t, feed (coveredBytes field (recordBytes r) ++ halfBytes (byteSum (coveredBytes field (recordBytes r)))) s =
        .next t ∧
      exec .parse t = .next { t with results := t.results ++ [.record r] }

/-- A two-byte payload framed with its checksum and completed by PROCESS is what PARSE_SHORT returns, high byte first
(R43, R97; the byte order is the spec's own choice, 92_eei_decisions.md D11). -/
def Obligations.ParseShortRecoversTheFramedValue : Prop :=
  ∀ (s : State) (field : List Byte) (v : Half), Inv s → Ready s → HuntsForHeader s →
    Announces s.config.lenMode field 2 → Admits s.config.lenMode s.cap 2 →
    ∃ t, feed (coveredBytes field (halfBytes v) ++ halfBytes (byteSum (coveredBytes field (halfBytes v)))) s = .next t ∧
      exec .parseShort t = .next { t with results := t.results ++ [.value v] }

/-! ## PARSE and PARSE_SHORT (spec/42_measurement_extractor.md) -/

/-- R95 and R96: in the read window of a 26-byte payload PARSE completes and returns the record whose 16-bit fields stand
big-endian at offsets 0, 2, …, 22 and whose two byte fields stand at 24 and 25; nothing else changes. -/
def Obligations.ParseReturnsTheRecordOfTheLayout : Prop :=
  ∀ s : State, WindowOpen s 26 →
    ∃ r : MeasurementRecord,
      exec .parse s = .next { s with results := s.results ++ [.record r] } ∧
      s.buf.read 0 = some (hiByte r.concPM1_0_CF1) ∧ s.buf.read 1 = some (loByte r.concPM1_0_CF1) ∧
      s.buf.read 2 = some (hiByte r.concPM2_5_CF1) ∧ s.buf.read 3 = some (loByte r.concPM2_5_CF1) ∧
      s.buf.read 4 = some (hiByte r.concPM10_0_CF1) ∧ s.buf.read 5 = some (loByte r.concPM10_0_CF1) ∧
      s.buf.read 6 = some (hiByte r.concPM1_0_amb) ∧ s.buf.read 7 = some (loByte r.concPM1_0_amb) ∧
      s.buf.read 8 = some (hiByte r.concPM2_5_amb) ∧ s.buf.read 9 = some (loByte r.concPM2_5_amb) ∧
      s.buf.read 10 = some (hiByte r.concPM10_0_amb) ∧ s.buf.read 11 = some (loByte r.concPM10_0_amb) ∧
      s.buf.read 12 = some (hiByte r.rawBin0) ∧ s.buf.read 13 = some (loByte r.rawBin0) ∧
      s.buf.read 14 = some (hiByte r.rawBin1) ∧ s.buf.read 15 = some (loByte r.rawBin1) ∧
      s.buf.read 16 = some (hiByte r.rawBin2) ∧ s.buf.read 17 = some (loByte r.rawBin2) ∧
      s.buf.read 18 = some (hiByte r.rawBin3) ∧ s.buf.read 19 = some (loByte r.rawBin3) ∧
      s.buf.read 20 = some (hiByte r.rawBin4) ∧ s.buf.read 21 = some (loByte r.rawBin4) ∧
      s.buf.read 22 = some (hiByte r.rawBin5) ∧ s.buf.read 23 = some (loByte r.rawBin5) ∧
      s.buf.read 24 = some r.version ∧ s.buf.read 25 = some r.errorCode

/-- R97: in the read window PARSE_SHORT completes; it returns the two payload bytes, the first one high, if the payload
has exactly 2 bytes, and 0x0000 for a payload of any other length. -/
def Obligations.ParseShortReturnsThePairOrZero : Prop :=
  (∀ s : State, WindowOpen s 2 →
    ∃ hi lo, s.buf.read 0 = some hi ∧ s.buf.read 1 = some lo ∧
      exec .parseShort s = .next { s with results := s.results ++ [.value (bePair hi lo)] }) ∧
  (∀ s : State, s.fault = none → s.frameValid = true → s.len ≠ 2 →
    exec .parseShort s = .next { s with results := s.results ++ [.value 0x0000] })

/-- The frame of PARSE, PARSE_SHORT and ENCODE (R33): they write no field of `S` but `fault`, which PARSE and PARSE_SHORT
may record and ENCODE never does, no FrameBuffer byte, and nothing of the host's but one result. -/
def Obligations.ReadsAndEncodeFrame : Prop :=
  ∀ (s t : State) (i : Instr), exec i s = .next t →
    i = .parse ∨ i = .parseShort ∨ (∃ cmd data cap, i = .encode cmd data cap) →
    t.config = s.config ∧ t.state = s.state ∧ t.sum = s.sum ∧ t.chk = s.chk ∧ t.len = s.len ∧ t.idx = s.idx ∧
    t.cap = s.cap ∧ t.bound = s.bound ∧ t.frameValid = s.frameValid ∧ t.pending = s.pending ∧ t.index = s.index ∧
    (∀ a, t.buf.read a = s.buf.read a) ∧ (∃ r, t.results = s.results ++ [r]) ∧
    (t.fault = s.fault ∨
      (s.fault = none ∧ (i = .parse ∨ i = .parseShort) ∧
        (t.fault = some { cause := .noValidFrame, word := encode i } ∨
          (i = .parse ∧ t.fault = some { cause := .payloadLength, word := encode i }))))

/-- R98: PARSE and PARSE_SHORT are pure functions of `frame_valid`, `len` and the FrameBuffer: two instances with no fault
that agree on these give the same result. -/
def Obligations.ReadsDependOnTheCompletedPayloadOnly : Prop :=
  ∀ (s s' t : State) (i : Instr), i = .parse ∨ i = .parseShort →
    s.fault = none → s'.fault = none → s.config.bufSize = s'.config.bufSize → s.frameValid = s'.frameValid →
    s.len = s'.len → (∀ a, s.buf.read a = s'.buf.read a) → exec i s = .next t →
    ∃ (r : Result) (t' : State), t.results = s.results ++ [r] ∧ exec i s' = .next t' ∧ t'.results = s'.results ++ [r]

/-- R127 and R47: PARSE, PARSE_SHORT and ENCODE do not close the read window, so a read after one of them gives the same
result as before it; a PROCESS that does not complete a frame and an INIT close it, and a read after them faults. -/
def Obligations.ReadWindowClosesOnProcessAndInitOnly : Prop :=
  (∀ (s u : State) (i j : Instr) (n : Half), WindowOpen s n →
    i = .parse ∨ i = .parseShort → j = .parse ∨ j = .parseShort ∨ (∃ cmd data cap, j = .encode cmd data cap) →
    exec j s = .next u → u.fault = none →
    ∃ (r : Result) (t t' : State), exec i s = .next t ∧ t.results = s.results ++ [r] ∧
      exec i u = .next t' ∧ t'.results = u.results ++ [r]) ∧
  (∀ (s u : State) (i j : Instr), s.fault = none → i = .parse ∨ i = .parseShort →
    (∃ b, j = .process b) ∨ (∃ cap, j = .init cap) → exec j s = .next u → u.fault = none →
    u.results ≠ s.results ++ [.done true] →
    ∃ t, exec i u = .next t ∧ t.results = u.results ++ [.fault .noValidFrame])

/-- Two byte writes read back as one big-endian pair, and a byte access sees one byte of it (R45). -/
def Obligations.BytePairReadsBackBigEndian : Prop :=
  ∀ (s : State) (a : Nat) (hi lo : Byte), a + 1 < s.config.bufSize →
    ∃ t u, memWrite1 a hi s = .ok t ∧ memWrite1 (a + 1) lo t = .ok u ∧
      memRead2 u a = .ok (bePair hi lo) ∧ memRead1 u a = .ok (hiByte (bePair hi lo)) ∧
      memRead1 u (a + 1) = .ok (loByte (bePair hi lo)) ∧ (bePair hi lo).toNat = hi.toNat * 256 + lo.toNat

/-! ## ENCODE (spec/43_command_encoder.md) -/

/-- R100 and R101: ENCODE completes in every state without a fault, before INIT too, and returns the frame of R100 or,
for a buffer below 7 bytes, the empty list; no field of `S` and no FrameBuffer byte changes. -/
def Obligations.EncodeBuildsTheCommandFrame : Prop :=
  ∀ (s : State) (cmd : Byte) (data cap : Half), s.fault = none →
    exec (.encode cmd data cap) s = .next { s with
      results := s.results ++ [.bytes
        (if cap.toNat < 7 then []
         else
          [0x42, 0x4D, cmd, hiByte data, loByte data,
           hiByte (0x0042 + 0x004D + zext16 cmd + zext16 (hiByte data) + zext16 (loByte data)),
           loByte (0x0042 + 0x004D + zext16 cmd + zext16 (hiByte data) + zext16 (loByte data))])] }

/-- R102: with `cap` < 7 ENCODE returns the empty list and changes nothing: it is a result and not a fault. -/
def Obligations.EncodeIntoATooSmallBufferIsEmpty : Prop :=
  ∀ (s : State) (cmd : Byte) (data cap : Half), s.fault = none → cap.toNat < 7 →
    exec (.encode cmd data cap) s = .next { s with results := s.results ++ [.bytes []] }

/-- R103: the checksum of a command frame is the exact sum of its first five bytes, at most 0x038C: the modulus never
acts, and the high checksum byte is at most 0x03. -/
def Obligations.CommandChecksumNeverWraps : Prop :=
  ∀ (cmd : Byte) (data : Half),
    (commandChecksum cmd data).toNat = 0x42 + 0x4D + cmd.toNat + (hiByte data).toNat + (loByte data).toNat ∧
    (commandChecksum cmd data).toNat ≤ 0x038C ∧ (hiByte (commandChecksum cmd data)).toNat ≤ 0x03

/-- R105: an ENCODE before any operation changes neither what that operation does nor its result. -/
def Obligations.EncodeIsIndependentOfTheDecoder : Prop :=
  ∀ (s u t : State) (i : Instr) (cmd : Byte) (data cap : Half), s.fault = none →
    exec (.encode cmd data cap) s = .next u → exec i s = .next t →
    ∃ r, t.results = s.results ++ [r] ∧ exec i u = .next { t with results := u.results ++ [r] }

/-! ## Faults (spec/60_exceptions.md) -/

/-- R108: an operation that raises a fault records the cause and its own word, answers FAULT of that cause, and changes
nothing else: the fault is precise. -/
def Obligations.RaisedFaultIsPrecise : Prop :=
  ∀ (s t : State) (w : Word) (rest : List Word), s.fault = none → s.pending = w :: rest → step s = .next t →
    t.fault ≠ none →
    ∃ cause, t = { s with
      pending := rest
      index := s.index + 1
      fault := some { cause := cause, word := w }
      results := s.results ++ [.fault cause] }

/-- R109: while a fault is recorded every operation, whatever its word, changes nothing and returns FAULT of the recorded
cause, for any number of words; only power-on reset clears the record. -/
def Obligations.FaultedInstanceIsTerminal : Prop :=
  ∀ (s : State) (f : FaultRecord), s.fault = some f →
    (∀ ws rest : List Word, s.pending = ws ++ rest →
      runSteps ws.length s = .next { s with
        pending := rest
        index := s.index + ws.length
        results := s.results ++ List.replicate ws.length (.fault f.cause) }) ∧
    (powerOnReset s).fault = none

/-- R110: the first fault in this order is raised: a recorded fault, ILLEGAL_OPERATION, the operation's own check,
PAYLOAD_LENGTH. `raised c` is the state in which the word has raised `c`. -/
def Obligations.FaultPriority : Prop :=
  ∀ (s : State) (w : Word) (rest : List Word), s.pending = w :: rest →
    let s' : State := { s with pending := rest, index := s.index + 1 }
    let raised (c : Cause) : State :=
      { s' with fault := some { cause := c, word := w }, results := s.results ++ [.fault c] }
    (∀ f, s.fault = some f → step s = .next { s' with results := s.results ++ [.fault f.cause] }) ∧
    (s.fault = none → (∃ e, decode w = .error e) → step s = .next (raised .illegalOperation)) ∧
    (s.fault = none → ∀ cap, decode w = .ok (.init cap) → s.config.bufSize < cap.toNat →
      step s = .next (raised .capacityExceedsBuffer)) ∧
    (s.fault = none → ∀ b, decode w = .ok (.process b) → s.bound = false → step s = .next (raised .notInitialised)) ∧
    (s.fault = none → decode w = .ok .parse ∨ decode w = .ok .parseShort → s.frameValid = false →
      step s = .next (raised .noValidFrame)) ∧
    (s.fault = none → decode w = .ok .parse → s.frameValid = true → s.len ≠ 26 →
      step s = .next (raised .payloadLength))

/-- R111: no condition on the line is a fault, a PARSE_SHORT of a payload that is not 2 bytes is none, and an ENCODE into
a small buffer is none: each returns its defined result and records nothing. -/
def Obligations.LineConditionsAreNotFaults : Prop :=
  (∀ (s : State) (b : Byte), Inv s → Ready s →
    ∃ t done, exec (.process b) s = .next t ∧ t.fault = none ∧ t.results = s.results ++ [.done done]) ∧
  (∀ s : State, s.fault = none → s.frameValid = true → s.len ≠ 2 →
    ∃ t, exec .parseShort s = .next t ∧ t.fault = none ∧ t.results = s.results ++ [.value 0x0000]) ∧
  (∀ (s : State) (cmd : Byte) (data cap : Half), s.fault = none → cap.toNat < 7 →
    ∃ t, exec (.encode cmd data cap) s = .next t ∧ t.fault = none ∧ t.results = s.results ++ [.bytes []])

/-! ## Channels and the assembler -/

/-- R118: an operation of one channel's instance reads and writes no other instance. That the instances stand in a list is
the model's choice (log entry 12). -/
def Obligations.ChannelsAreIsolated : Prop :=
  ∀ (cs ds cs' : List State) (k : Nat), stepChannel k cs = .next cs' →
    cs'.length = cs.length ∧ (∀ j, j ≠ k → cs'[j]? = cs[j]?) ∧
    (∀ s, cs[k]? = some s → ∃ t, step s = .next t ∧ cs'[k]? = some t) ∧
    (ds[k]? = cs[k]? → ∃ ds', stepChannel k ds = .next ds' ∧ ds'[k]? = cs'[k]?)

/-- R71: the assembler refuses a literal out of range and never produces an illegal word: each word of a line decodes to
the operation it was made from. -/
def Obligations.AssembledWordsDecodeToTheirOperations : Prop :=
  ∀ l : AsmLine,
    (l.wf = false → assemble l = none) ∧
    (l.wf = true → ∃ ws, assemble l = some ws ∧ ws.map decode = (expandLine l).map .ok)

/-- R70: FEED is one PROCESS per byte, in order: running the words of a FEED line is feeding its bytes. -/
def Obligations.FeedLineIsOneProcessPerByte : Prop :=
  ∀ (bytes : List Byte) (s : State) (rest ws : List Word), assemble (.feed (bytes.map BitVec.toNat)) = some ws →
    ws = bytes.map (fun b => encode (.process b)) ∧
    runSteps ws.length { s with pending := ws ++ rest } =
      feed bytes { s with pending := rest, index := s.index + ws.length }
end

