-- ==== Sys2Proof/Laws/Decode.lean ====
section
/-! SUPPORT. The fields of a packed word, a word as the pack of its fields, and everything the decoder can answer. -/

namespace Sys2Proof

/-! ## Fields and packing -/

@[simp] theorem opcField_packWord (o r : Byte) (c : Half) (q m : Byte) (d : Half) :
    opcField (packWord o r c q m d) = o := by
  apply BitVec.eq_of_getLsbD_eq
  intro i hi
  simp only [opcField, packWord, BitVec.getLsbD_extractLsb', BitVec.getLsbD_append, hi, decide_true, Bool.true_and]
  split_ifs <;> first | omega | (congr 1; omega)

@[simp] theorem rsv0Field_packWord (o r : Byte) (c : Half) (q m : Byte) (d : Half) :
    rsv0Field (packWord o r c q m d) = r := by
  apply BitVec.eq_of_getLsbD_eq
  intro i hi
  simp only [rsv0Field, packWord, BitVec.getLsbD_extractLsb', BitVec.getLsbD_append, hi, decide_true, Bool.true_and]
  split_ifs <;> first | omega | (congr 1; omega)

@[simp] theorem capField_packWord (o r : Byte) (c : Half) (q m : Byte) (d : Half) :
    capField (packWord o r c q m d) = c := by
  apply BitVec.eq_of_getLsbD_eq
  intro i hi
  simp only [capField, packWord, BitVec.getLsbD_extractLsb', BitVec.getLsbD_append, hi, decide_true, Bool.true_and]
  split_ifs <;> first | omega | (congr 1; omega)

@[simp] theorem rsv1Field_packWord (o r : Byte) (c : Half) (q m : Byte) (d : Half) :
    rsv1Field (packWord o r c q m d) = q := by
  apply BitVec.eq_of_getLsbD_eq
  intro i hi
  simp only [rsv1Field, packWord, BitVec.getLsbD_extractLsb', BitVec.getLsbD_append, hi, decide_true, Bool.true_and]
  split_ifs <;> first | omega | (congr 1; omega)

@[simp] theorem cmdField_packWord (o r : Byte) (c : Half) (q m : Byte) (d : Half) :
    cmdField (packWord o r c q m d) = m := by
  apply BitVec.eq_of_getLsbD_eq
  intro i hi
  simp only [cmdField, packWord, BitVec.getLsbD_extractLsb', BitVec.getLsbD_append, hi, decide_true, Bool.true_and]
  split_ifs <;> first | omega | (congr 1; omega)

@[simp] theorem dataField_packWord (o r : Byte) (c : Half) (q m : Byte) (d : Half) :
    dataField (packWord o r c q m d) = d := by
  apply BitVec.eq_of_getLsbD_eq
  intro i hi
  simp only [dataField, packWord, BitVec.getLsbD_extractLsb', BitVec.getLsbD_append, hi, decide_true, Bool.true_and]
  split_ifs <;> first | omega | (congr 1; omega)

/-- Every word is the pack of its six fields (R56). -/
theorem packWord_fields (w : Word) :
    packWord (opcField w) (rsv0Field w) (capField w) (rsv1Field w) (cmdField w) (dataField w) = w := by
  apply BitVec.eq_of_getLsbD_eq
  intro i hi
  simp only [opcField, rsv0Field, capField, rsv1Field, cmdField, dataField, packWord, BitVec.getLsbD_extractLsb',
    BitVec.getLsbD_append]
  split_ifs <;> (try simp only [*, decide_true, Bool.true_and]) <;>
    first | omega | (rw [decide_eq_true (by omega), Bool.true_and]; congr 1; omega) | (congr 1; omega)

/-- Two packs are equal exactly when their fields are. -/
theorem packWord_inj {o r : Byte} {c : Half} {q m : Byte} {d : Half} {o' r' : Byte} {c' : Half} {q' m' : Byte} {d' : Half} :
    packWord o r c q m d = packWord o' r' c' q' m' d' ↔
      o = o' ∧ r = r' ∧ c = c' ∧ q = q' ∧ m = m' ∧ d = d' := by
  constructor
  · intro h
    exact ⟨by simpa using congrArg opcField h, by simpa using congrArg rsv0Field h, by simpa using congrArg capField h,
      by simpa using congrArg rsv1Field h, by simpa using congrArg cmdField h, by simpa using congrArg dataField h⟩
  · rintro ⟨rfl, rfl, rfl, rfl, rfl, rfl⟩
    rfl

/-- Masking a word field by field. -/
theorem packWord_and (o o' r r' : Byte) (c c' : Half) (q q' m m' : Byte) (d d' : Half) :
    packWord o r c q m d &&& packWord o' r' c' q' m' d' =
      packWord (o &&& o') (r &&& r') (c &&& c') (q &&& q') (m &&& m') (d &&& d') := by
  apply BitVec.eq_of_getLsbD_eq
  intro i _
  simp only [packWord, BitVec.getLsbD_and, BitVec.getLsbD_append]
  split_ifs <;> rfl

/-! ## The zero tests of R62 -/

theorem low32_eq_zero (w : Word) :
    w.extractLsb' 0 32 = 0#32 ↔ rsv1Field w = 0#8 ∧ cmdField w = 0#8 ∧ dataField w = 0#16 := by
  simp only [rsv1Field, cmdField, dataField, ← BitVec.toNat_inj, BitVec.extractLsb'_toNat, Nat.shiftRight_eq_div_pow]
  simp
  omega

theorem mid40_eq_zero (w : Word) :
    w.extractLsb' 8 40 = 0#40 ↔
      capField w = 0#16 ∧ rsv1Field w = 0#8 ∧ cmdField w = 0#8 ∧ dataField w = 0#8 ++ byteField w := by
  have hb : (0#8 ++ byteField w : Half).toNat = (byteField w).toNat :=
    (BitVec.toNat_append 0#8 (byteField w)).trans (by simp)
  simp only [← BitVec.toNat_inj, hb]
  simp only [rsv1Field, cmdField, dataField, capField, byteField, BitVec.extractLsb'_toNat, Nat.shiftRight_eq_div_pow]
  simp
  omega

theorem low56_eq_zero (w : Word) :
    w.extractLsb' 0 56 = 0#56 ↔
      rsv0Field w = 0#8 ∧ capField w = 0#16 ∧ rsv1Field w = 0#8 ∧ cmdField w = 0#8 ∧ dataField w = 0#16 := by
  simp only [rsv0Field, rsv1Field, cmdField, dataField, capField, ← BitVec.toNat_inj, BitVec.extractLsb'_toNat,
    Nat.shiftRight_eq_div_pow]
  simp
  omega

/-! ## Everything the decoder can answer -/

/-- If the decoder answers an operation, the word has that operation's code and every other bit where R61 and R62 put it. -/
theorem decode_ok_cases {w : Word} {i : Instr} (h : decode w = .ok i) :
    (rsv0Field w = 0#8 ∧ rsv1Field w = 0#8) ∧
    ((opcField w = 0x01#8 ∧ (cmdField w = 0#8 ∧ dataField w = 0#16) ∧ i = .init (capField w)) ∨
     (opcField w = 0x02#8 ∧ (capField w = 0#16 ∧ cmdField w = 0#8 ∧ dataField w = 0#8 ++ byteField w) ∧
       i = .process (byteField w)) ∨
     (opcField w = 0x03#8 ∧ (capField w = 0#16 ∧ cmdField w = 0#8 ∧ dataField w = 0#16) ∧ i = .parse) ∨
     (opcField w = 0x04#8 ∧ (capField w = 0#16 ∧ cmdField w = 0#8 ∧ dataField w = 0#16) ∧ i = .parseShort) ∨
     (opcField w = 0x05#8 ∧ i = .encode (cmdField w) (dataField w) (capField w))) := by
  unfold decode at h
  split at h
  · cases h
  next hr =>
    have hr : rsv0Field w = 0#8 ∧ rsv1Field w = 0#8 := by simpa [not_or] using hr
    refine ⟨hr, ?_⟩
    simp only [low32_eq_zero, mid40_eq_zero, low56_eq_zero, hr.1, hr.2, true_and] at h
    split at h
    · next ho =>
      split at h
      · next hz => cases h; exact .inl ⟨ho, hz, rfl⟩
      · cases h
    · split at h
      · next ho =>
        split at h
        · next hz => cases h; exact .inr (.inl ⟨ho, hz, rfl⟩)
        · cases h
      · split at h
        · next ho =>
          split at h
          · next hz => cases h; exact .inr (.inr (.inl ⟨ho, hz, rfl⟩))
          · cases h
        · split at h
          · next ho =>
            split at h
            · next hz => cases h; exact .inr (.inr (.inr (.inl ⟨ho, hz, rfl⟩)))
            · cases h
          · split at h
            · next ho => cases h; exact .inr (.inr (.inr (.inr ⟨ho, rfl⟩)))
            · cases h

end Sys2Proof
end

