-- ==== Sys2Proof/Laws/Memory.lean ====
section
/-! SUPPORT. The FrameBuffer as data: read after write, and the canonical form that every write keeps. -/

namespace Sys2Proof.Machine

@[simp] theorem Memory.read_nil (a : Nat) : Memory.read [] a = none := rfl

theorem Memory.read_write_same (m : Memory) (a : Nat) (v : Byte) : (m.write a v).read a = some v := by
  induction m with
  | nil => simp [Memory.write, Memory.read]
  | cons e rest ih =>
    obtain ⟨k, x⟩ := e
    unfold Memory.write
    split
    · simp [Memory.read]
    · split
      · simp [Memory.read]
      · simp [Memory.read, *]

theorem Memory.read_write_other (m : Memory) {a b : Nat} (v : Byte) (h : b ≠ a) : (m.write a v).read b = m.read b := by
  induction m with
  | nil => simp [Memory.write, Memory.read, h]
  | cons e rest ih =>
    obtain ⟨k, x⟩ := e
    unfold Memory.write
    split
    · simp [Memory.read, h]
    · split
      · next hk => subst hk; simp [Memory.read, h]
      · simp [Memory.read, ih]

/-- A write reads back at its own offset and nowhere else. -/
theorem Memory.read_write (m : Memory) (a b : Nat) (v : Byte) :
    (m.write a v).read b = if b = a then some v else m.read b := by
  split
  · next h => subst h; exact Memory.read_write_same m b v
  · next h => exact Memory.read_write_other m v h

theorem Memory.risesAbove_mono {lo lo' : Nat} (m : Memory) (h : lo' ≤ lo) (hm : m.risesAbove lo = true) :
    m.risesAbove lo' = true := by
  cases m with
  | nil => rfl
  | cons e rest =>
    simp only [Memory.risesAbove, Bool.and_eq_true, decide_eq_true_eq] at hm ⊢
    exact ⟨by omega, hm.2⟩

theorem Memory.write_risesAbove {lo a : Nat} (m : Memory) (v : Byte) (ha : lo < a) (hm : m.risesAbove lo = true) :
    (m.write a v).risesAbove lo = true := by
  induction m generalizing lo with
  | nil => simp [Memory.write, Memory.risesAbove, ha]
  | cons e rest ih =>
    obtain ⟨k, x⟩ := e
    simp only [Memory.risesAbove, Bool.and_eq_true, decide_eq_true_eq] at hm
    unfold Memory.write
    split
    · simp [Memory.risesAbove, *]
    · split
      · next hk => subst hk; simp [Memory.risesAbove, *]
      · simp only [Memory.risesAbove, Bool.and_eq_true, decide_eq_true_eq]
        exact ⟨hm.1, ih (by omega) hm.2⟩

/-- Every write keeps the canonical form. -/
theorem Memory.write_wf (m : Memory) (a : Nat) (v : Byte) (hm : m.wf = true) : (m.write a v).wf = true := by
  cases m with
  | nil => rfl
  | cons e rest =>
    obtain ⟨k, x⟩ := e
    simp only [Memory.wf] at hm
    unfold Memory.write
    split
    · simp [Memory.wf, Memory.risesAbove, *]
    · split
      · next hk => subst hk; simpa [Memory.wf] using hm
      · exact Memory.write_risesAbove rest v (by omega) hm

theorem Memory.read_eq_none_of_risesAbove {lo a : Nat} (m : Memory) (hm : m.risesAbove lo = true) (ha : a ≤ lo) :
    m.read a = none := by
  induction m generalizing lo with
  | nil => rfl
  | cons e rest ih =>
    obtain ⟨k, x⟩ := e
    simp only [Memory.risesAbove, Bool.and_eq_true, decide_eq_true_eq] at hm
    have hk : a ≠ k := by omega
    simp only [Memory.read, hk, if_false]
    exact ih hm.2 (by omega)

theorem Memory.ext_risesAbove (lo : Nat) (m m' : Memory) (hm : m.risesAbove lo = true) (hm' : m'.risesAbove lo = true)
    (h : ∀ a, m.read a = m'.read a) : m = m' := by
  induction m generalizing m' lo with
  | nil =>
    cases m' with
    | nil => rfl
    | cons e' _ => simpa [Memory.read] using h e'.1
  | cons e rest ih =>
    obtain ⟨k, x⟩ := e
    cases m' with
    | nil => simpa [Memory.read] using h k
    | cons e' rest' =>
      obtain ⟨k', x'⟩ := e'
      simp only [Memory.risesAbove, Bool.and_eq_true, decide_eq_true_eq] at hm hm'
      have hkk : k = k' := by
        by_contra hne
        rcases Nat.lt_or_gt_of_ne hne with hlt | hgt
        · have h1 := h k
          simp [Memory.read, hne, Memory.read_eq_none_of_risesAbove rest' hm'.2 (Nat.le_of_lt hlt)] at h1
        · have h1 := h k'
          simp [Memory.read, Ne.symm hne, Memory.read_eq_none_of_risesAbove rest hm.2 (Nat.le_of_lt hgt)] at h1
      subst hkk
      have hx : x = x' := by simpa [Memory.read] using h k
      subst hx
      have hrest : rest = rest' := by
        refine ih k rest' hm.2 hm'.2 fun a => ?_
        by_cases ha : a = k
        · subst ha
          rw [Memory.read_eq_none_of_risesAbove rest hm.2 (Nat.le_refl a),
            Memory.read_eq_none_of_risesAbove rest' hm'.2 (Nat.le_refl a)]
        · simpa [Memory.read, ha] using h a
      rw [hrest]

/-- Canonical memories that read alike everywhere are equal data. -/
theorem Memory.ext_of_wf (m m' : Memory) (hm : m.wf = true) (hm' : m'.wf = true) (h : ∀ a, m.read a = m'.read a) :
    m = m' := by
  cases m with
  | nil =>
    cases m' with
    | nil => rfl
    | cons e' _ => simpa [Memory.read] using h e'.1
  | cons e rest =>
    obtain ⟨k, x⟩ := e
    cases m' with
    | nil => simpa [Memory.read] using h k
    | cons e' rest' =>
      obtain ⟨k', x'⟩ := e'
      simp only [Memory.wf] at hm hm'
      have hkk : k = k' := by
        by_contra hne
        rcases Nat.lt_or_gt_of_ne hne with hlt | hgt
        · have h1 := h k
          simp [Memory.read, hne, Memory.read_eq_none_of_risesAbove rest' hm' (Nat.le_of_lt hlt)] at h1
        · have h1 := h k'
          simp [Memory.read, Ne.symm hne, Memory.read_eq_none_of_risesAbove rest hm (Nat.le_of_lt hgt)] at h1
      subst hkk
      have hx : x = x' := by simpa [Memory.read] using h k
      subst hx
      have hrest : rest = rest' := by
        refine Memory.ext_risesAbove k rest rest' hm hm' fun a => ?_
        by_cases ha : a = k
        · subst ha
          rw [Memory.read_eq_none_of_risesAbove rest hm (Nat.le_refl a),
            Memory.read_eq_none_of_risesAbove rest' hm' (Nat.le_refl a)]
        · simpa [Memory.read, ha] using h a
      rw [hrest]

end Sys2Proof.Machine
end

