-- ==== Sys2Proof/Laws/State.lean ====
section
/-! SUPPORT. One lemma per field per named update of the state, so that no later proof unfolds a record update. -/

namespace Sys2Proof.Machine

/-! ## respond -/

@[simp] theorem respond_config (r : Result) (s : State) : (respond r s).config = s.config := rfl
@[simp] theorem respond_state (r : Result) (s : State) : (respond r s).state = s.state := rfl
@[simp] theorem respond_sum (r : Result) (s : State) : (respond r s).sum = s.sum := rfl
@[simp] theorem respond_chk (r : Result) (s : State) : (respond r s).chk = s.chk := rfl
@[simp] theorem respond_len (r : Result) (s : State) : (respond r s).len = s.len := rfl
@[simp] theorem respond_idx (r : Result) (s : State) : (respond r s).idx = s.idx := rfl
@[simp] theorem respond_cap (r : Result) (s : State) : (respond r s).cap = s.cap := rfl
@[simp] theorem respond_bound (r : Result) (s : State) : (respond r s).bound = s.bound := rfl
@[simp] theorem respond_frameValid (r : Result) (s : State) : (respond r s).frameValid = s.frameValid := rfl
@[simp] theorem respond_fault (r : Result) (s : State) : (respond r s).fault = s.fault := rfl
@[simp] theorem respond_buf (r : Result) (s : State) : (respond r s).buf = s.buf := rfl
@[simp] theorem respond_pending (r : Result) (s : State) : (respond r s).pending = s.pending := rfl
@[simp] theorem respond_index (r : Result) (s : State) : (respond r s).index = s.index := rfl
@[simp] theorem respond_results (r : Result) (s : State) : (respond r s).results = s.results ++ [r] := rfl

/-! ## raiseFault -/

@[simp] theorem raiseFault_config (c : Cause) (w : Word) (s : State) : (raiseFault c w s).config = s.config := rfl
@[simp] theorem raiseFault_state (c : Cause) (w : Word) (s : State) : (raiseFault c w s).state = s.state := rfl
@[simp] theorem raiseFault_sum (c : Cause) (w : Word) (s : State) : (raiseFault c w s).sum = s.sum := rfl
@[simp] theorem raiseFault_chk (c : Cause) (w : Word) (s : State) : (raiseFault c w s).chk = s.chk := rfl
@[simp] theorem raiseFault_len (c : Cause) (w : Word) (s : State) : (raiseFault c w s).len = s.len := rfl
@[simp] theorem raiseFault_idx (c : Cause) (w : Word) (s : State) : (raiseFault c w s).idx = s.idx := rfl
@[simp] theorem raiseFault_cap (c : Cause) (w : Word) (s : State) : (raiseFault c w s).cap = s.cap := rfl
@[simp] theorem raiseFault_bound (c : Cause) (w : Word) (s : State) : (raiseFault c w s).bound = s.bound := rfl
@[simp] theorem raiseFault_frameValid (c : Cause) (w : Word) (s : State) : (raiseFault c w s).frameValid = s.frameValid := rfl
@[simp] theorem raiseFault_fault (c : Cause) (w : Word) (s : State) : (raiseFault c w s).fault = some { cause := c, word := w } := rfl
@[simp] theorem raiseFault_buf (c : Cause) (w : Word) (s : State) : (raiseFault c w s).buf = s.buf := rfl
@[simp] theorem raiseFault_pending (c : Cause) (w : Word) (s : State) : (raiseFault c w s).pending = s.pending := rfl
@[simp] theorem raiseFault_index (c : Cause) (w : Word) (s : State) : (raiseFault c w s).index = s.index := rfl
@[simp] theorem raiseFault_results (c : Cause) (w : Word) (s : State) : (raiseFault c w s).results = s.results ++ [.fault c] := rfl

/-! ## issue -/

@[simp] theorem issue_config (w : Word) (s : State) : (issue w s).config = s.config := rfl
@[simp] theorem issue_state (w : Word) (s : State) : (issue w s).state = s.state := rfl
@[simp] theorem issue_sum (w : Word) (s : State) : (issue w s).sum = s.sum := rfl
@[simp] theorem issue_chk (w : Word) (s : State) : (issue w s).chk = s.chk := rfl
@[simp] theorem issue_len (w : Word) (s : State) : (issue w s).len = s.len := rfl
@[simp] theorem issue_idx (w : Word) (s : State) : (issue w s).idx = s.idx := rfl
@[simp] theorem issue_cap (w : Word) (s : State) : (issue w s).cap = s.cap := rfl
@[simp] theorem issue_bound (w : Word) (s : State) : (issue w s).bound = s.bound := rfl
@[simp] theorem issue_frameValid (w : Word) (s : State) : (issue w s).frameValid = s.frameValid := rfl
@[simp] theorem issue_fault (w : Word) (s : State) : (issue w s).fault = s.fault := rfl
@[simp] theorem issue_buf (w : Word) (s : State) : (issue w s).buf = s.buf := rfl
@[simp] theorem issue_pending (w : Word) (s : State) : (issue w s).pending = w :: s.pending := rfl
@[simp] theorem issue_index (w : Word) (s : State) : (issue w s).index = s.index := rfl
@[simp] theorem issue_results (w : Word) (s : State) : (issue w s).results = s.results := rfl

/-! ## bindCapacity -/

@[simp] theorem bindCapacity_config (cap : Half) (s : State) : (bindCapacity cap s).config = s.config := rfl
@[simp] theorem bindCapacity_state (cap : Half) (s : State) : (bindCapacity cap s).state = .awaitH1 := rfl
@[simp] theorem bindCapacity_sum (cap : Half) (s : State) : (bindCapacity cap s).sum = 0 := rfl
@[simp] theorem bindCapacity_chk (cap : Half) (s : State) : (bindCapacity cap s).chk = 0 := rfl
@[simp] theorem bindCapacity_len (cap : Half) (s : State) : (bindCapacity cap s).len = 0 := rfl
@[simp] theorem bindCapacity_idx (cap : Half) (s : State) : (bindCapacity cap s).idx = 0 := rfl
@[simp] theorem bindCapacity_cap (cap : Half) (s : State) : (bindCapacity cap s).cap = cap := rfl
@[simp] theorem bindCapacity_bound (cap : Half) (s : State) : (bindCapacity cap s).bound = true := rfl
@[simp] theorem bindCapacity_frameValid (cap : Half) (s : State) : (bindCapacity cap s).frameValid = false := rfl
@[simp] theorem bindCapacity_fault (cap : Half) (s : State) : (bindCapacity cap s).fault = s.fault := rfl
@[simp] theorem bindCapacity_buf (cap : Half) (s : State) : (bindCapacity cap s).buf = s.buf := rfl
@[simp] theorem bindCapacity_pending (cap : Half) (s : State) : (bindCapacity cap s).pending = s.pending := rfl
@[simp] theorem bindCapacity_index (cap : Half) (s : State) : (bindCapacity cap s).index = s.index := rfl
@[simp] theorem bindCapacity_results (cap : Half) (s : State) : (bindCapacity cap s).results = s.results := rfl

/-! ## addToSum -/

@[simp] theorem addToSum_config (b : Byte) (s : State) : (addToSum b s).config = s.config := rfl
@[simp] theorem addToSum_state (b : Byte) (s : State) : (addToSum b s).state = s.state := rfl
@[simp] theorem addToSum_sum (b : Byte) (s : State) : (addToSum b s).sum = s.sum + zext16 b := rfl
@[simp] theorem addToSum_chk (b : Byte) (s : State) : (addToSum b s).chk = s.chk := rfl
@[simp] theorem addToSum_len (b : Byte) (s : State) : (addToSum b s).len = s.len := rfl
@[simp] theorem addToSum_idx (b : Byte) (s : State) : (addToSum b s).idx = s.idx := rfl
@[simp] theorem addToSum_cap (b : Byte) (s : State) : (addToSum b s).cap = s.cap := rfl
@[simp] theorem addToSum_bound (b : Byte) (s : State) : (addToSum b s).bound = s.bound := rfl
@[simp] theorem addToSum_frameValid (b : Byte) (s : State) : (addToSum b s).frameValid = s.frameValid := rfl
@[simp] theorem addToSum_fault (b : Byte) (s : State) : (addToSum b s).fault = s.fault := rfl
@[simp] theorem addToSum_buf (b : Byte) (s : State) : (addToSum b s).buf = s.buf := rfl
@[simp] theorem addToSum_pending (b : Byte) (s : State) : (addToSum b s).pending = s.pending := rfl
@[simp] theorem addToSum_index (b : Byte) (s : State) : (addToSum b s).index = s.index := rfl
@[simp] theorem addToSum_results (b : Byte) (s : State) : (addToSum b s).results = s.results := rfl

/-! ## closePayload -/

@[simp] theorem closePayload_config (s : State) : (closePayload s).config = s.config := rfl
@[simp] theorem closePayload_state (s : State) : (closePayload s).state = if s.idx = s.len then .awaitCkHi else s.state := rfl
@[simp] theorem closePayload_sum (s : State) : (closePayload s).sum = s.sum := rfl
@[simp] theorem closePayload_chk (s : State) : (closePayload s).chk = s.chk := rfl
@[simp] theorem closePayload_len (s : State) : (closePayload s).len = s.len := rfl
@[simp] theorem closePayload_idx (s : State) : (closePayload s).idx = s.idx := rfl
@[simp] theorem closePayload_cap (s : State) : (closePayload s).cap = s.cap := rfl
@[simp] theorem closePayload_bound (s : State) : (closePayload s).bound = s.bound := rfl
@[simp] theorem closePayload_frameValid (s : State) : (closePayload s).frameValid = s.frameValid := rfl
@[simp] theorem closePayload_fault (s : State) : (closePayload s).fault = s.fault := rfl
@[simp] theorem closePayload_buf (s : State) : (closePayload s).buf = s.buf := rfl
@[simp] theorem closePayload_pending (s : State) : (closePayload s).pending = s.pending := rfl
@[simp] theorem closePayload_index (s : State) : (closePayload s).index = s.index := rfl
@[simp] theorem closePayload_results (s : State) : (closePayload s).results = s.results := rfl

/-! ## powerOn -/

@[simp] theorem State.powerOn_config (c : Config) : (State.powerOn c).config = c := rfl
@[simp] theorem State.powerOn_state (c : Config) : (State.powerOn c).state = .awaitH1 := rfl
@[simp] theorem State.powerOn_sum (c : Config) : (State.powerOn c).sum = 0 := rfl
@[simp] theorem State.powerOn_chk (c : Config) : (State.powerOn c).chk = 0 := rfl
@[simp] theorem State.powerOn_len (c : Config) : (State.powerOn c).len = 0 := rfl
@[simp] theorem State.powerOn_idx (c : Config) : (State.powerOn c).idx = 0 := rfl
@[simp] theorem State.powerOn_cap (c : Config) : (State.powerOn c).cap = 0 := rfl
@[simp] theorem State.powerOn_bound (c : Config) : (State.powerOn c).bound = false := rfl
@[simp] theorem State.powerOn_frameValid (c : Config) : (State.powerOn c).frameValid = false := rfl
@[simp] theorem State.powerOn_fault (c : Config) : (State.powerOn c).fault = none := rfl
@[simp] theorem State.powerOn_buf (c : Config) : (State.powerOn c).buf = [] := rfl
@[simp] theorem State.powerOn_pending (c : Config) : (State.powerOn c).pending = [] := rfl
@[simp] theorem State.powerOn_index (c : Config) : (State.powerOn c).index = 0 := rfl
@[simp] theorem State.powerOn_results (c : Config) : (State.powerOn c).results = [] := rfl

end Sys2Proof.Machine
end

