-- ==== Sys2Proof/Laws/Ops.lean ====
section
/-! SUPPORT. One lemma per shared operation that says once what it can do. -/

namespace Sys2Proof.Machine

/-! ## FrameBuffer accesses -/

/-- A one-byte read that answers a value found it, inside the FrameBuffer. -/
theorem memRead1_ok_iff (s : State) (a : Nat) (v : Byte) :
    memRead1 s a = .ok v ↔ a < s.config.bufSize ∧ s.buf.read a = some v := by
  unfold memRead1
  split
  · simp; omega
  · split <;> simp_all

/-- A two-byte read that answers a value found both bytes, the high one at the lower offset. -/
theorem memRead2_ok_iff (s : State) (a : Nat) (v : Half) :
    memRead2 s a = .ok v ↔ ∃ hi lo, memRead1 s a = .ok hi ∧ memRead1 s (a + 1) = .ok lo ∧ v = bePair hi lo := by
  unfold memRead2
  cases memRead1 s a with
  | error f => simp
  | ok hi =>
    cases memRead1 s (a + 1) with
    | error f => simp
    | ok lo => simp [eq_comm]

/-- A write that answers a state wrote inside the FrameBuffer and changed nothing else. -/
theorem memWrite1_ok_iff (a : Nat) (v : Byte) (s t : State) :
    memWrite1 a v s = .ok t ↔ a < s.config.bufSize ∧ t = { s with buf := s.buf.write a v } := by
  unfold memWrite1
  split
  · simp; omega
  · simp [eq_comm]; omega

/-! ## Operations and faults -/

theorem operate_noFault {s : State} (h : s.fault = none) (body : Outcome) : operate s body = body := by
  simp [operate, h]

theorem operate_faulted {s : State} {f : FaultRecord} (h : s.fault = some f) (body : Outcome) :
    operate s body = .next (respond (.fault f.cause) s) := by
  simp [operate, h]

/-- An operation that answers a next state either found a recorded fault and only answered it, or ran its body. -/
theorem operate_next {s t : State} {body : Outcome} (h : operate s body = .next t) :
    (∃ f, s.fault = some f ∧ t = respond (.fault f.cause) s) ∨ (s.fault = none ∧ body = .next t) := by
  cases hf : s.fault with
  | none => exact .inr ⟨rfl, by rwa [operate_noFault hf] at h⟩
  | some f =>
    rw [operate_faulted hf] at h
    cases h
    exact .inl ⟨f, rfl, rfl⟩

/-- An illegal word always answers a next state. -/
theorem illegalWord_next (w : Word) (s : State) :
    (∃ f, s.fault = some f ∧ illegalWord w s = .next (respond (.fault f.cause) s)) ∨
    (s.fault = none ∧ illegalWord w s = .next (raiseFault .illegalOperation w s)) := by
  cases hf : s.fault with
  | none => exact .inr ⟨rfl, operate_noFault hf _⟩
  | some f => exact .inl ⟨f, rfl, operate_faulted hf _⟩

/-! ## The host's stream -/

theorem takeWord_nil {s : State} (h : s.pending = []) : takeWord s = none := by
  simp [takeWord, h]

theorem takeWord_cons {s : State} {w : Word} {rest : List Word} (h : s.pending = w :: rest) :
    takeWord s = some (w, { s with pending := rest, index := s.index + 1 }) := by
  simp [takeWord, h]

/-! ## Sequences -/

@[simp] theorem andThen_next (s : State) (f : State → Outcome) : andThen (.next s) f = f s := rfl
@[simp] theorem andThen_fault (r : Fault) (f : State → Outcome) : andThen (.fault r) f = .fault r := rfl
@[simp] theorem andThen_refused (r : Refusal) (f : State → Outcome) : andThen (.refused r) f = .refused r := rfl

/-- A sequence that answers a next state ran both parts. -/
theorem andThen_eq_next {o : Outcome} {f : State → Outcome} {t : State} (h : andThen o f = .next t) :
    ∃ s, o = .next s ∧ f s = .next t := by
  cases o with
  | next s => exact ⟨s, rfl, h⟩
  | fault r => cases h
  | refused r => cases h

end Sys2Proof.Machine
end

