-- ==== Sys2Proof/Laws/FrameDecoder.lean ====
section
/-! SUPPORT. What a PROCESS may do: one inversion lemma per step that has cases, and the frame of the whole. -/

namespace Sys2Proof.Machine

/-- RX_PAYLOAD with a slot to fill: the byte is summed and stored, and the last slot closes the payload. -/
theorem stepPayload_store {b : Byte} {s t : State} (h : stepPayload b s = .ok t) (hi : s.idx < s.len) :
    s.idx.toNat < s.config.bufSize ∧
    t = closePayload { addToSum b s with buf := s.buf.write s.idx.toNat b, idx := s.idx + 1 } := by
  unfold stepPayload at h
  rw [if_pos hi] at h
  split at h
  · cases h
  · next s' hs =>
    obtain ⟨hlt, rfl⟩ := (memWrite1_ok_iff _ _ _ _).1 hs
    cases h
    exact ⟨hlt, rfl⟩

/-- RX_PAYLOAD with no slot to fill: the byte is summed and not stored. -/
theorem stepPayload_noStore {b : Byte} {s t : State} (h : stepPayload b s = .ok t) (hi : ¬ s.idx < s.len) :
    t = closePayload (addToSum b s) := by
  unfold stepPayload at h
  rw [if_neg hi] at h
  cases h
  rfl

/-- Everything `processByte` can answer, one case per row of the transition table. -/
theorem processByte_cases {b : Byte} {s t : State} {done : Bool} (h : processByte b s = .ok (t, done)) :
    (s.state = .awaitH1 ∧ t = stepH1 b s ∧ done = false) ∨
    (s.state = .awaitH2 ∧ t = stepH2 b s ∧ done = false) ∨
    (s.state = .awaitLen ∧ t = stepLen b s ∧ done = false) ∨
    (s.state = .awaitLenHi ∧ t = stepLenHi b s ∧ done = false) ∨
    (s.state = .awaitLenLo ∧ t = stepLenLo b s ∧ done = false) ∨
    (s.state = .rxPayload ∧ stepPayload b s = .ok t ∧ done = false) ∨
    (s.state = .awaitCkHi ∧ t = stepCkHi b s ∧ done = false) ∨
    (s.state = .awaitCkLo ∧ t = (stepCkLo b s).1 ∧ done = (stepCkLo b s).2) := by
  unfold processByte at h
  split at h
  case h_6 hs =>
    split at h
    · cases h
    · next s' hp => cases h; simp [hs, hp]
  all_goals next hs => cases h; simp [hs, stepCkLo]

/-- Everything PROCESS can answer as a next state. -/
theorem execProcess_cases {b : Byte} {s t : State} (h : execProcess b s = .next t) :
    (∃ f, s.fault = some f ∧ t = respond (.fault f.cause) s) ∨
    (s.fault = none ∧ s.bound = false ∧ t = raiseFault .notInitialised (encode (.process b)) s) ∨
    (s.fault = none ∧ s.bound = true ∧ ∃ s' done, processByte b { s with frameValid := false } = .ok (s', done) ∧
      t = respond (.done done) { s' with frameValid := done }) := by
  rcases operate_next h with ⟨f, hf, rfl⟩ | ⟨hf, hb⟩
  · exact .inl ⟨f, hf, rfl⟩
  · split at hb
    · next hbound =>
      cases hb
      exact .inr (.inl ⟨hf, hbound, rfl⟩)
    · next hbound =>
      split at hb
      · cases hb
      · next s' done hp =>
        cases hb
        exact .inr (.inr ⟨hf, by simpa using hbound, s', done, hp, rfl⟩)

end Sys2Proof.Machine
end

