-- ==== Sys2Proof/Laws/PerInstr.lean ====
section
/-! SUPPORT. Per-instruction laws of the encoding (spec/30_encoding.md R63). -/

namespace Sys2Proof.Laws

/-- The word that spells an operation selects that operation's row. -/
def SelectsOwnRow.Statement (i : Instr) : Prop := (opcodeRow i).selects (encode i) = true

theorem SelectsOwnRow.init (cap : Half) : SelectsOwnRow.Statement (.init cap) := by
  have hm : 0xFFFF0000FFFFFFFF#64 = packWord 0xFF#8 0xFF#8 0#16 0xFF#8 0xFF#8 0xFFFF#16 := by decide
  simp only [SelectsOwnRow.Statement, OpcodeRow.selects, opcodeRow, encode, hm, packWord_and]
  simp [packWord]

theorem SelectsOwnRow.process (b : Byte) : SelectsOwnRow.Statement (.process b) := by
  have hm : 0xFFFFFFFFFFFFFF00#64 = packWord 0xFF#8 0xFF#8 0xFFFF#16 0xFF#8 0xFF#8 (0xFF#8 ++ 0x00#8) := by decide
  have hb : (0#8 ++ b) &&& (0xFF#8 ++ 0x00#8) = 0#16 :=
    (@BitVec.and_append 8 8 0#8 0xFF#8 b 0x00#8).trans (by simp)
  simp only [SelectsOwnRow.Statement, OpcodeRow.selects, opcodeRow, encode, hm, packWord_and, hb]
  simp [packWord]

theorem SelectsOwnRow.parse : SelectsOwnRow.Statement .parse := by
  unfold SelectsOwnRow.Statement; decide

theorem SelectsOwnRow.parseShort : SelectsOwnRow.Statement .parseShort := by
  unfold SelectsOwnRow.Statement; decide

theorem SelectsOwnRow.encode (cmd : Byte) (data cap : Half) : SelectsOwnRow.Statement (.encode cmd data cap) := by
  have hm : 0xFFFF0000FF000000#64 = packWord 0xFF#8 0xFF#8 0#16 0xFF#8 0#8 0#16 := by decide
  simp only [SelectsOwnRow.Statement, OpcodeRow.selects, opcodeRow, Sys2Proof.encode, hm, packWord_and]
  simp [packWord]

end Sys2Proof.Laws
end

