-- ==== Sys2Proof/Tests/Slice0.lean ====
section
/-! SUPPORT. Tests. Expected values are those of spec/95_test_vectors.md (the vector is named) or written out from the
rule that is named. The witnesses show, for each statement with hypotheses, a concrete state and operands that meet them. -/

namespace Sys2Proof.Tests

open Sys2Proof.Machine

/-! ## Helpers -/

/-- A configuration with 64 bytes of storage, as in section 3 of the vectors. -/
def cfg (m : LenMode) (h : HdrResync) : Config := { lenMode := m, hdrResync := h, bufSize := 64 }

/-- An instance after `INIT 32`, in the parse position `p`. -/
def ready (m : LenMode) (h : HdrResync) (p : ParseState) : State :=
  { State.powerOn (cfg m h) with state := p, cap := 32, bound := true }

/-- The same under LEN2 and REPROCESS. -/
def at2 (p : ParseState) : State := ready .len2 .reprocess p

/-- Bytes at offsets `a`, `a + 1`, … -/
def bytesFrom (a : Nat) : List Byte → Memory
  | [] => []
  | b :: bs => (a, b) :: bytesFrom (a + 1) bs

/-- An instance whose last PROCESS completed a frame with this payload. -/
def completed (payload : List Byte) : State :=
  { at2 .awaitH1 with
    len := BitVec.ofNat 16 payload.length, idx := BitVec.ofNat 16 payload.length
    frameValid := true, buf := bytesFrom 0 payload }

/-- The payload of vector X3: 0x01 to 0x1A. -/
def ascending : List Byte := (List.range 26).map fun j => BitVec.ofNat 8 (j + 1)

/-- Vector S26's state: an accepted length of 26, nothing received yet. -/
def receiving : State := { at2 .rxPayload with sum := 0x00AB, len := 26 }

/-- An instance with a recorded fault (vector F9). -/
def faulted : State :=
  { State.powerOn (cfg .len2 .reprocess) with
    fault := some { cause := .capacityExceedsBuffer, word := 0x0100004100000000 } }

/-- `s` with these words issued. -/
def withWords (ws : List Word) (s : State) : State := { s with pending := ws }

/-- The last result of an outcome. -/
def lastResult : Outcome → Option Result
  | .next s => s.results.getLast?
  | .fault _ => none
  | .refused _ => none

/-- A field of the state an outcome answers. -/
def field {α : Type} (f : State → α) : Outcome → Option α
  | .next s => some (f s)
  | .fault _ => none
  | .refused _ => none

/-- Whether an outcome is a next state. -/
def completes : Outcome → Bool
  | .next _ => true
  | .fault _ => false
  | .refused _ => false

theorem completes_iff (o : Outcome) : completes o = true ↔ ∃ t, o = .next t := by
  cases o <;> simp [completes]

theorem next_of_field {o : Outcome} {t : State} (h : field id o = some t) : o = .next t := by
  cases o <;> simp_all [field]

/-- `Inv` as a computation. -/
def invHolds (s : State) : Bool :=
  s.config.wf && s.state.allowed s.config.lenMode &&
  (s.bound || (decide (s.state = .awaitH1) && !s.frameValid)) &&
  decide (s.cap.toNat ≤ s.config.bufSize) &&
  (!s.state.receiving || (decide (s.len ≤ s.cap) && decide (s.idx ≤ s.len))) &&
  (decide (s.state ≠ .rxPayload) || decide (s.idx < s.len) || (decide (s.idx = 0) && decide (s.len = 0))) &&
  (decide (s.state ≠ .awaitCkHi ∧ s.state ≠ .awaitCkLo) || decide (s.idx = s.len)) &&
  (decide (s.state ≠ .awaitLenLo) || decide (loByte s.len = 0)) &&
  (decide (s.state ≠ .awaitCkLo) || decide (loByte s.chk = 0)) &&
  (!s.state.receiving || (List.range s.idx.toNat).all fun a => (s.buf.read a).isSome) &&
  (!s.frameValid || (decide (s.state = .awaitH1) && decide (s.chk = s.sum) && decide (s.len ≤ s.cap) &&
    (List.range s.len.toNat).all fun a => (s.buf.read a).isSome)) &&
  s.buf.wf && s.buf.all fun c => decide (c.1 < s.config.bufSize)

theorem read_eq_none (m : Memory) (n a : Nat) (h : (m.all fun c => decide (c.1 < n)) = true) (ha : n ≤ a) :
    m.read a = none := by
  induction m with
  | nil => rfl
  | cons c m ih =>
    obtain ⟨k, v⟩ := c
    simp only [List.all_cons, Bool.and_eq_true, decide_eq_true_eq] at h
    rw [Memory.read, if_neg (by omega)]
    exact ih h.2

theorem written (m : Memory) (n : Nat) (h : ((List.range n).all fun a => (m.read a).isSome) = true) :
    ∀ a, a < n → ∃ v, m.read a = some v := by
  intro a ha
  rw [List.all_eq_true] at h
  exact Option.isSome_iff_exists.1 (h a (List.mem_range.2 ha))

theorem inv_of_holds (s : State) (h : invHolds s = true) : Machine.Inv s := by
  simp only [invHolds, Bool.and_eq_true, Bool.or_eq_true, Bool.not_eq_true', decide_eq_true_eq] at h
  obtain ⟨⟨⟨⟨⟨⟨⟨⟨⟨⟨⟨⟨h1, h2⟩, h3⟩, h4⟩, h5⟩, h6⟩, h7⟩, h8⟩, h9⟩, h10⟩, h11⟩, h12⟩, h13⟩ := h
  constructor
  · exact h1
  · exact h2
  · intro hb; rw [hb] at h3; simpa using h3
  · exact h4
  · intro hr; rw [hr] at h5; simpa using h5
  · intro hs; simpa [hs] using h6
  · rintro (hs | hs) <;> simpa [hs] using h7
  · intro hs; simpa [hs] using h8
  · intro hs; simpa [hs] using h9
  · intro hr; exact written _ _ (by simpa [hr] using h10)
  · intro hv
    rw [hv] at h11
    obtain ⟨⟨⟨a, b⟩, c⟩, d⟩ := h11.resolve_left (by simp)
    exact ⟨a, b, c, written _ _ d⟩
  · exact h12
  · intro a ha; exact read_eq_none _ _ a h13 ha

/-! ## WellFormed: each check refuses an ill-formed term -/

theorem test_config_refuses_no_storage : Config.wf { cfg .len1 .discard with bufSize := 0 } = false := by decide
theorem test_config_refuses_too_much_storage : Config.wf { cfg .len1 .discard with bufSize := 65536 } = false := by decide
theorem test_config_accepts_the_bounds :
    Config.wf { cfg .len1 .discard with bufSize := 1 } = true ∧
    Config.wf { cfg .len1 .discard with bufSize := 65535 } = true := by decide
theorem test_line_refuses_a_wide_byte : AsmLine.wf (.proc 256) = false := by decide
theorem test_line_refuses_a_wide_capacity : AsmLine.wf (.init 65536) = false := by decide
theorem test_line_refuses_a_wide_command : AsmLine.wf (.encode 256 0 7) = false := by decide
theorem test_line_refuses_wide_data : AsmLine.wf (.encode 0xE1 65536 7) = false := by decide
theorem test_line_refuses_a_wide_encode_capacity : AsmLine.wf (.encode 0xE1 0 65536) = false := by decide
theorem test_line_refuses_a_wide_feed : AsmLine.wf (.feed [66, 256]) = false := by decide
theorem test_line_refuses_an_empty_feed : AsmLine.wf (.feed []) = false := by decide

/-! ## Decoding: words written out from R63, one per operation, and illegal words (vectors V1, V3 to V6, V8 to V19) -/

theorem test_decode_init : decode 0x0100001000000000 = .ok (.init 16) := by decide
theorem test_decode_process : decode 0x0200000000000042 = .ok (.process 0x42) := by decide
theorem test_decode_parse : decode 0x0300000000000000 = .ok .parse := by decide
theorem test_decode_parseShort : decode 0x0400000000000000 = .ok .parseShort := by decide
theorem test_decode_encode : decode 0x0500001000E11234 = .ok (.encode 0xE1 0x1234 16) := by decide
theorem test_decode_refuses_unknown_operations :
    [0x0000000000000000, 0x0600000000000000, 0xFF00000000000000].map decode =
      [.error .noOperation, .error .noOperation, .error .noOperation] := by decide
theorem test_decode_refuses_unused_bits :
    [0x0200000000000142, 0x0200000100000042, 0x0100000800000001, 0x0100000800010000, 0x0300000000000001].map decode =
      List.replicate 5 (.error .unusedField) := by decide
theorem test_decode_refuses_reserved_bits :
    [0x0101000000000000, 0x0480000000000000, 0x0500000701E10000, 0x0501000700E10000, 0x0100004180000000].map decode =
      List.replicate 5 (.error .reservedField) := by decide
theorem test_encode_writes_the_same_words :
    [Instr.init 16, .process 0x42, .parse, .parseShort, .encode 0xE1 0x1234 16].map encode =
      [0x0100001000000000, 0x0200000000000042, 0x0300000000000000, 0x0400000000000000, 0x0500001000E11234] := by decide
theorem test_table_word_is_read_as_one_unit : decodeTableWord 64 0x0500001000E11234 = some (.encode 0xE1 0x1234 16) := by
  decide
theorem test_issued_word_runs_next :
    lastResult (step (State.reset.withFetchWord 64 0x0500001000E11234)) =
      some (.bytes [0x42, 0x4D, 0xE1, 0x12, 0x34, 0x01, 0xB6]) := by decide

/-! ## The assembler (R69 to R71) -/

theorem test_assemble_feed :
    assembleText ['F', 'E', 'E', 'D', ' ', '0', 'x', '4', '2', ',', ' ', '7', '7', ' ', ';', 'c'] =
      some [0x0200000000000042, 0x020000000000004D] := by decide
theorem test_assemble_refuses_out_of_range : assembleText ['P', 'R', 'O', 'C', ' ', '2', '5', '6'] = none := by decide

/-! ## One step each -/

/-- INIT 32 in AWAIT_CK_LO abandons the frame (section 3 of the vectors). -/
theorem test_init_restarts_mid_frame :
    exec (.init 32) { at2 .awaitCkLo with sum := 0x02C6, chk := 0x0200, len := 26, idx := 26 } =
      .next { at2 .awaitH1 with results := [.unit] } := next_of_field (by decide)
/-- F3. -/
theorem test_init_beyond_the_storage :
    field (·.fault) (exec (.init 65) (State.powerOn (cfg .len2 .reprocess))) =
      some (some { cause := .capacityExceedsBuffer, word := 0x0100004100000000 }) := by decide
/-- S27. -/
theorem test_process_fills_the_last_slot :
    exec (.process 0x99) { receiving with sum := 0x0100, idx := 25 } =
      .next { receiving with
        state := .awaitCkHi, sum := 0x0199, idx := 26, buf := [(25, 0x99)], results := [.done false] } :=
  next_of_field (by decide)
/-- S31. -/
theorem test_process_completes_a_frame :
    lastResult (exec (.process 0xC6) { at2 .awaitCkLo with sum := 0x02C6, chk := 0x0200, len := 26, idx := 26 }) =
      some (.done true) := by decide
/-- X3. -/
theorem test_parse_ascending :
    lastResult (exec .parse (completed ascending)) =
      some (.record ⟨0x0102, 0x0304, 0x0506, 0x0708, 0x090A, 0x0B0C, 0x0D0E, 0x0F10, 0x1112, 0x1314, 0x1516, 0x1718,
        0x19, 0x1A⟩) := by decide
/-- X6. -/
theorem test_parse_refuses_a_short_payload :
    lastResult (exec .parse (completed [0x80, 0x01])) = some (.fault .payloadLength) := by decide
/-- X6. -/
theorem test_parseShort_pair : lastResult (exec .parseShort (completed [0x80, 0x01])) = some (.value 0x8001) := by decide
/-- X8. -/
theorem test_parseShort_other_length :
    lastResult (exec .parseShort (completed [0x01, 0x02, 0x03])) = some (.value 0x0000) := by decide
/-- E5. -/
theorem test_encode_largest_checksum :
    lastResult (exec (.encode 0xFF 0xFFFF 7) (State.powerOn (cfg .len1 .discard))) =
      some (.bytes [0x42, 0x4D, 0xFF, 0xFF, 0xFF, 0x03, 0x8C]) := by decide
/-- E3. -/
theorem test_encode_small_buffer :
    lastResult (exec (.encode 0xE1 0x1234 6) (State.powerOn (cfg .len1 .discard))) = some (.bytes []) := by decide
/-- V20: the word is checked before the capacity. -/
theorem test_illegal_word_comes_first :
    lastResult (step (withWords [0x0100004180000000] (at2 .awaitH1))) = some (.fault .illegalOperation) := by decide

/-! ## Witnesses: the hypotheses of the statements can be met, at the boundary of each clause -/

theorem test_witness_LegalWordIsTheEncodingOfItsOperation :
    decode 0x0500FFFF00FFFFFF = .ok (.encode 0xFF 0xFFFF 65535) := by decide

theorem test_witness_ReservedAndUnusedFieldsMustBeZero :
    rsv0Field 0x0501000000000000 ≠ 0#8 ∧ rsv1Field 0x0500000080000000 ≠ 0#8 ∧
    (opcField 0x0100000000000001 = 0x01#8 ∧ (0x0100000000000001 : Word).extractLsb' 0 32 ≠ 0#32) ∧
    (opcField 0x0200000000000100 = 0x02#8 ∧ (0x0200000000000100 : Word).extractLsb' 8 40 ≠ 0#40) ∧
    (opcField 0x0380000000000000 = 0x03#8 ∧ (0x0380000000000000 : Word).extractLsb' 0 56 ≠ 0#56) ∧
    (opcField 0x0400000000000001 = 0x04#8 ∧ (0x0400000000000001 : Word).extractLsb' 0 56 ≠ 0#56) ∧
    (opcField 0x0500FFFF00FFFFFF = 0x05#8 ∧ rsv0Field 0x0500FFFF00FFFFFF = 0#8 ∧ rsv1Field 0x0500FFFF00FFFFFF = 0#8) := by
  decide

theorem test_witness_IllegalWordsAreThoseNoRowSelects :
    opcField 0x0000000000000000 = 0x00#8 ∧ 0x06#8 ≤ opcField 0x0600000000000000 ∧ 0x06#8 ≤ opcField 0xFF00000000000000 ∧
    (withWords [0x0600000000000000] (at2 .rxPayload)).fault = none ∧
    decode 0x0600000000000000 = .error .noOperation := by decide

theorem test_witness_StepRunsTheDecodedOperation :
    (withWords [0x0300000000000000, 0] faulted).pending = 0x0300000000000000 :: [0] ∧
    decode 0x0300000000000000 = .ok .parse := by decide

theorem test_witness_StepWithoutAWordChangesNothing : State.reset.pending = [] := rfl

theorem test_witness_EveryOperationAdvancesTheIndexByOne :
    ∃ t, step (withWords [0x0300000000000000] State.reset) = .next t := (completes_iff _).1 (by decide)

theorem test_witness_RunObservesOneResultPerWord :
    Config.wf { cfg .len1 .discard with bufSize := 1 } = true ∧
    Config.wf { cfg .len2 .reprocess with bufSize := 65535 } = true := by decide

theorem test_witness_ResetStateIsGood :
    Config.wf { cfg .len1 .discard with bufSize := 1 } = true ∧
    Config.wf { cfg .len2 .reprocess with bufSize := 65535 } = true := by decide

theorem test_witness_StepKeepsTheInvariant :
    Machine.Inv (withWords [0x0200000000000055] receiving) ∧
    ∃ t, step (withWords [0x0200000000000055] receiving) = .next t :=
  ⟨inv_of_holds _ (by decide), (completes_iff _).1 (by decide)⟩

theorem test_witness_StepNeverStopsInAGoodState :
    Machine.Inv (withWords [0x0300000000000000] (completed ascending)) := inv_of_holds _ (by decide)

theorem test_witness_StepKeepsRecordedFaultsPlausible :
    FaultsPlausible (withWords [0x0300000000000000] faulted) ∧
    ∃ t, step (withWords [0x0300000000000000] faulted) = .next t := by
  refine ⟨?_, (completes_iff _).1 (by decide)⟩
  intro f hf
  cases hf
  exact (by decide : 64 < (65#16).toNat)

theorem test_witness_InitBindsTheCapacityAndRestarts :
    (at2 .awaitCkLo).fault = none ∧ (64#16).toNat ≤ (at2 .awaitCkLo).config.bufSize ∧
    (0#16).toNat ≤ (at2 .awaitCkLo).config.bufSize := by decide

theorem test_witness_InitFrame :
    (∃ t, exec (.init 64) (at2 .rxPayload) = .next t) ∧ (∃ t, exec (.init 64) faulted = .next t) ∧
    ((at2 .rxPayload).config.bufSize < (65#16).toNat ∧ ∃ t, exec (.init 65) (at2 .rxPayload) = .next t) :=
  ⟨(completes_iff _).1 (by decide), (completes_iff _).1 (by decide), by decide, (completes_iff _).1 (by decide)⟩

theorem test_witness_ProcessInAwaitH1 : Ready (at2 .awaitH1) ∧ (at2 .awaitH1).state = .awaitH1 := ⟨⟨rfl, rfl⟩, rfl⟩

theorem test_witness_ProcessSecondMagicByte :
    (Ready (at2 .awaitH2) ∧ (at2 .awaitH2).state = .awaitH2) ∧
    (Ready (ready .len1 .discard .awaitH2) ∧ (ready .len1 .discard .awaitH2).state = .awaitH2) :=
  ⟨⟨⟨rfl, rfl⟩, rfl⟩, ⟨rfl, rfl⟩, rfl⟩

theorem test_witness_ProcessDiscardsAHeaderMismatch :
    Ready (ready .len2 .discard .awaitH2) ∧ (ready .len2 .discard .awaitH2).state = .awaitH2 ∧
    (ready .len2 .discard .awaitH2).config.hdrResync = .discard ∧ (0x42#8) ≠ 0x4D := ⟨⟨rfl, rfl⟩, rfl, rfl, by decide⟩

theorem test_witness_ProcessReprocessesAHeaderMismatch :
    Ready (at2 .awaitH2) ∧ (at2 .awaitH2).state = .awaitH2 ∧ (at2 .awaitH2).config.hdrResync = .reprocess ∧
    (0x42#8) ≠ 0x4D := ⟨⟨rfl, rfl⟩, rfl, rfl, by decide⟩

/-- S12 to S15: lengths 2 and 32 accepted under the capacity 32, 1 and 33 rejected. -/
theorem test_witness_ProcessInAwaitLen :
    (Ready (ready .len1 .reprocess .awaitLen) ∧ (ready .len1 .reprocess .awaitLen).state = .awaitLen) ∧
    (2 ≤ (0x02#8).toNat ∧ (0x02#8).toNat ≤ (ready .len1 .reprocess .awaitLen).cap.toNat) ∧
    (2 ≤ (0x20#8).toNat ∧ (0x20#8).toNat ≤ (ready .len1 .reprocess .awaitLen).cap.toNat) ∧
    (0x01#8).toNat < 2 ∧ (ready .len1 .reprocess .awaitLen).cap.toNat < (0x21#8).toNat :=
  ⟨⟨⟨rfl, rfl⟩, rfl⟩, by decide, by decide, by decide, by decide⟩

theorem test_witness_ProcessInAwaitLenHi :
    Ready (at2 .awaitLenHi) ∧ (at2 .awaitLenHi).state = .awaitLenHi := ⟨⟨rfl, rfl⟩, rfl⟩

/-- S20 to S23: length values 2 and 34 accepted under the capacity 32, 1 and 35 rejected. -/
theorem test_witness_ProcessInAwaitLenLo :
    (Ready (at2 .awaitLenLo) ∧ (at2 .awaitLenLo).state = .awaitLenLo ∧ (at2 .awaitLenLo).len = bePair 0x00 0x00) ∧
    (2 ≤ (bePair 0x00 0x02).toNat ∧ (bePair 0x00 0x02).toNat - 2 ≤ (at2 .awaitLenLo).cap.toNat) ∧
    (2 ≤ (bePair 0x00 0x22).toNat ∧ (bePair 0x00 0x22).toNat - 2 ≤ (at2 .awaitLenLo).cap.toNat) ∧
    (bePair 0x00 0x01).toNat < 2 ∧ (at2 .awaitLenLo).cap.toNat < (bePair 0x00 0x23).toNat - 2 :=
  ⟨⟨⟨rfl, rfl⟩, rfl, by decide⟩, by decide, by decide, by decide, by decide⟩

/-- S26, and S28 with no slot to fill. -/
theorem test_witness_ProcessInRxPayload :
    (Ready receiving ∧ receiving.state = .rxPayload ∧ (receiving.idx < receiving.len) ∧
      (receiving.idx < receiving.len → receiving.idx.toNat < receiving.config.bufSize)) ∧
    (Ready (at2 .rxPayload) ∧ (at2 .rxPayload).state = .rxPayload ∧ ¬ (at2 .rxPayload).idx < (at2 .rxPayload).len) :=
  ⟨⟨⟨rfl, rfl⟩, rfl, by decide, by decide⟩, ⟨rfl, rfl⟩, rfl, by decide⟩

theorem test_witness_ProcessInAwaitCkHi : Ready (at2 .awaitCkHi) ∧ (at2 .awaitCkHi).state = .awaitCkHi :=
  ⟨⟨rfl, rfl⟩, rfl⟩

theorem test_witness_ProcessInAwaitCkLo :
    (Ready { at2 .awaitCkLo with chk := 0x0200 } ∧ (at2 .awaitCkLo).state = .awaitCkLo ∧
      ({ at2 .awaitCkLo with chk := 0x0200 } : State).chk = bePair 0x02 0x00) ∧
    (∃ t, exec (.process 0) (at2 .awaitCkLo) = .next t ∧ t.results = (at2 .awaitCkLo).results ++ [.done true]) :=
  ⟨⟨⟨rfl, rfl⟩, rfl, by decide⟩, { at2 .awaitH1 with frameValid := true, results := [.done true] },
    next_of_field (by decide), by decide⟩

theorem test_witness_ProcessFrame :
    (∃ t, exec (.process 0x42) receiving = .next t) ∧
    (¬ Ready State.reset ∧ ∃ t, exec (.process 0x42) State.reset = .next t) :=
  ⟨(completes_iff _).1 (by decide), fun h => Bool.noConfusion h.2, (completes_iff _).1 (by decide)⟩

theorem test_witness_PayloadBytesLandInArrivalOrder :
    (∃ t, exec (.process 0x42) receiving = .next t ∧ t.buf.read 0 ≠ receiving.buf.read 0) ∧
    (Machine.Inv receiving ∧ Ready receiving ∧ receiving.state = .rxPayload ∧ receiving.idx = 0 ∧
      ascending.length ≤ receiving.len.toNat) :=
  ⟨⟨{ receiving with sum := 0x00ED, idx := 1, buf := [(0, 0x42)], results := [.done false] },
      next_of_field (by decide), by decide⟩,
    inv_of_holds _ (by decide), ⟨rfl, rfl⟩, rfl, rfl, by decide⟩

theorem test_witness_NextParsePositionDependsOnNothingElse :
    (Ready (at2 .awaitCkHi) ∧ Ready { at2 .awaitCkHi with sum := 1 } ∧
      (∃ t, exec (.process 1) (at2 .awaitCkHi) = .next t) ∧
      ∃ t, exec (.process 1) { at2 .awaitCkHi with sum := 1 } = .next t) ∧
    Machine.Inv State.reset :=
  ⟨⟨⟨rfl, rfl⟩, ⟨rfl, rfl⟩, (completes_iff _).1 (by decide), (completes_iff _).1 (by decide)⟩,
    inv_of_holds _ (by decide)⟩

theorem test_witness_BoundIsSetByInitAndNeverCleared :
    (State.reset.fault = none ∧ State.reset.bound = false ∧ (64#16).toNat ≤ State.reset.config.bufSize) ∧
    ((at2 .awaitH1).bound = true ∧ ∃ t, exec (.init 0) (at2 .awaitH1) = .next t) ∧
    (∃ t, exec (.init 64) State.reset = .next t ∧ t.bound = true) :=
  ⟨by decide, ⟨rfl, (completes_iff _).1 (by decide)⟩,
    { State.reset with cap := 64, bound := true, results := [.unit] }, next_of_field (by decide), rfl⟩

theorem test_witness_FrameValidIsTheLastDoneBit :
    (Ready receiving ∧ ∃ t, exec (.process 0) receiving = .next t) ∧
    (receiving.fault = none ∧ (64#16).toNat ≤ receiving.config.bufSize) ∧
    (∃ t, exec .parse (completed ascending) = .next t) ∧
    (receiving.fault = none ∧ receiving.frameValid = false) :=
  ⟨⟨⟨rfl, rfl⟩, (completes_iff _).1 (by decide)⟩, by decide, (completes_iff _).1 (by decide), by decide⟩

theorem test_witness_BytesAboveTheCapacityAreNeverWritten :
    Machine.Inv receiving ∧ (∃ t, exec (.process 0x42) receiving = .next t) ∧ receiving.cap.toNat ≤ 32 :=
  ⟨inv_of_holds _ (by decide), (completes_iff _).1 (by decide), by decide⟩

/-- The shortest payload, and the longest one the capacity 32 admits, under each length mode. -/
theorem test_witness_FrameCompletesIffItsChecksumIsTheSum :
    (Machine.Inv (at2 .awaitH2) ∧ Ready (at2 .awaitH2) ∧ HuntsForHeader (at2 .awaitH2) ∧
      Announces (at2 .awaitH2).config.lenMode [0x00, 0x03] [0x07].length ∧ Admits (at2 .awaitH2).config.lenMode 32 1 ∧
      Announces (at2 .awaitH2).config.lenMode [0x00, 0x22] (List.replicate 32 (0x07#8)).length ∧
      Admits (at2 .awaitH2).config.lenMode 32 32) ∧
    (Machine.Inv (ready .len1 .discard .awaitH1) ∧ Ready (ready .len1 .discard .awaitH1) ∧
      HuntsForHeader (ready .len1 .discard .awaitH1) ∧
      Announces (ready .len1 .discard .awaitH1).config.lenMode [0x20] (List.replicate 30 (0x07#8)).length ∧
      Admits (ready .len1 .discard .awaitH1).config.lenMode 32 30) :=
  ⟨⟨inv_of_holds _ (by decide), ⟨rfl, rfl⟩, .inr ⟨rfl, rfl⟩, (by decide : (bePair 0x00 0x03).toNat = 1 + 2),
      (by decide : 1 ≤ (32#16).toNat), (by decide : (bePair 0x00 0x22).toNat = 32 + 2),
      (by decide : 32 ≤ (32#16).toNat)⟩,
    inv_of_holds _ (by decide), ⟨rfl, rfl⟩, .inl rfl, (by decide : (0x20#8).toNat = 30 + 2),
    (by decide : 30 + 2 ≤ (32#16).toNat)⟩

theorem test_witness_EmptyPayloadTakesOneMoreByte :
    Machine.Inv (at2 .awaitH1) ∧ Ready (at2 .awaitH1) ∧ HuntsForHeader (at2 .awaitH1) ∧
    Announces (at2 .awaitH1).config.lenMode [0x00, 0x02] 0 ∧ Admits (at2 .awaitH1).config.lenMode 32 0 :=
  ⟨inv_of_holds _ (by decide), ⟨rfl, rfl⟩, .inl rfl, (by decide : (bePair 0x00 0x02).toNat = 0 + 2),
    (by decide : 0 ≤ (32#16).toNat)⟩

/-- The shortest payload that the capacity 32 does not admit, under each length mode. -/
theorem test_witness_OversizedLengthIsRejected :
    (Machine.Inv (at2 .awaitH1) ∧ Ready (at2 .awaitH1) ∧ HuntsForHeader (at2 .awaitH1) ∧
      Announces (at2 .awaitH1).config.lenMode [0x00, 0x23] 33 ∧ ¬ Admits (at2 .awaitH1).config.lenMode 32 33) ∧
    (Machine.Inv (ready .len1 .discard .awaitH1) ∧ Ready (ready .len1 .discard .awaitH1) ∧
      HuntsForHeader (ready .len1 .discard .awaitH1) ∧
      Announces (ready .len1 .discard .awaitH1).config.lenMode [0x21] 31 ∧
      ¬ Admits (ready .len1 .discard .awaitH1).config.lenMode 32 31) :=
  ⟨⟨inv_of_holds _ (by decide), ⟨rfl, rfl⟩, .inl rfl, (by decide : (bePair 0x00 0x23).toNat = 33 + 2),
      (by decide : ¬ 33 ≤ (32#16).toNat)⟩,
    inv_of_holds _ (by decide), ⟨rfl, rfl⟩, .inl rfl, (by decide : (0x21#8).toNat = 31 + 2),
    (by decide : ¬ 31 + 2 ≤ (32#16).toNat)⟩

theorem test_witness_NoiseNeverCompletesAFrame :
    Ready (at2 .awaitH1) ∧ (at2 .awaitH1).state = .awaitH1 ∧ containsHeader [0x4D, 0x42, 0x42, 0x00, 0x4D, 0x42] = false :=
  ⟨⟨rfl, rfl⟩, rfl, by decide⟩

theorem test_witness_ParseRecoversTheFramedRecord :
    Machine.Inv (at2 .awaitH1) ∧ Ready (at2 .awaitH1) ∧ HuntsForHeader (at2 .awaitH1) ∧
    Announces (at2 .awaitH1).config.lenMode [0x00, 0x1C] 26 ∧ Admits (at2 .awaitH1).config.lenMode 32 26 :=
  ⟨inv_of_holds _ (by decide), ⟨rfl, rfl⟩, .inl rfl, (by decide : (bePair 0x00 0x1C).toNat = 26 + 2),
    (by decide : 26 ≤ (32#16).toNat)⟩

theorem test_witness_ParseShortRecoversTheFramedValue :
    Machine.Inv (ready .len1 .reprocess .awaitH2) ∧ Ready (ready .len1 .reprocess .awaitH2) ∧
    HuntsForHeader (ready .len1 .reprocess .awaitH2) ∧
    Announces (ready .len1 .reprocess .awaitH2).config.lenMode [0x04] 2 ∧
    Admits (ready .len1 .reprocess .awaitH2).config.lenMode 32 2 :=
  ⟨inv_of_holds _ (by decide), ⟨rfl, rfl⟩, .inr ⟨rfl, rfl⟩, (by decide : (0x04#8).toNat = 2 + 2),
    (by decide : 2 + 2 ≤ (32#16).toNat)⟩

theorem window_open (payload : List Byte) (n : Half) (hl : (completed payload).len = n) (hn : n.toNat ≤ 64)
    (h : ((List.range n.toNat).all fun a => ((completed payload).buf.read a).isSome) = true) :
    WindowOpen (completed payload) n := ⟨rfl, rfl, hl, hn, written _ _ h⟩

theorem test_witness_ParseReturnsTheRecordOfTheLayout : WindowOpen (completed ascending) 26 :=
  window_open _ _ (by decide) (by decide) (by decide)

theorem test_witness_ParseShortReturnsThePairOrZero :
    WindowOpen (completed [0x80, 0x01]) 2 ∧
    ((completed [0x07]).fault = none ∧ (completed [0x07]).frameValid = true ∧ (completed [0x07]).len ≠ 2) ∧
    ((completed [1, 2, 3]).fault = none ∧ (completed [1, 2, 3]).frameValid = true ∧ (completed [1, 2, 3]).len ≠ 2) :=
  ⟨window_open _ _ (by decide) (by decide) (by decide), by decide, by decide⟩

theorem test_witness_ReadsAndEncodeFrame :
    (∃ t, exec .parse (completed ascending) = .next t) ∧ (∃ t, exec .parseShort (at2 .awaitH1) = .next t) ∧
    (∃ t, exec (.encode 0xE1 0 7) State.reset = .next t) :=
  ⟨(completes_iff _).1 (by decide), (completes_iff _).1 (by decide), (completes_iff _).1 (by decide)⟩

theorem test_witness_ReadsDependOnTheCompletedPayloadOnly :
    (completed ascending).fault = none ∧ ({ completed ascending with sum := 1, chk := 1 } : State).fault = none ∧
    (∀ a, (completed ascending).buf.read a = ({ completed ascending with sum := 1, chk := 1 } : State).buf.read a) ∧
    ∃ t, exec .parse (completed ascending) = .next t :=
  ⟨rfl, rfl, fun _ => rfl, (completes_iff _).1 (by decide)⟩

theorem test_witness_ReadWindowClosesOnProcessAndInitOnly :
    (WindowOpen (completed ascending) 26 ∧
      ∃ u, exec .parseShort (completed ascending) = .next u ∧ u.fault = none) ∧
    ((completed ascending).fault = none ∧
      ∃ u, exec (.init 64) (completed ascending) = .next u ∧ u.fault = none ∧
        u.results ≠ (completed ascending).results ++ [.done true]) ∧
    (∃ u, exec (.process 0x42) (completed ascending) = .next u ∧ u.fault = none ∧
      u.results ≠ (completed ascending).results ++ [.done true]) :=
  ⟨⟨window_open _ _ (by decide) (by decide) (by decide),
      { completed ascending with results := [.value 0] }, next_of_field (by decide), rfl⟩,
    ⟨rfl, { completed ascending with len := 0, idx := 0, cap := 64, frameValid := false, results := [.unit] },
      next_of_field (by decide), rfl, by decide⟩,
    { completed ascending with state := .awaitH2, sum := 0x42, frameValid := false, results := [.done false] },
    next_of_field (by decide), rfl, by decide⟩

theorem test_witness_BytePairReadsBackBigEndian : 62 + 1 < (at2 .awaitH1).config.bufSize := by decide

theorem test_witness_EncodeBuildsTheCommandFrame :
    State.reset.fault = none ∧ (6#16).toNat < 7 ∧ ¬ (7#16).toNat < 7 := by decide

theorem test_witness_EncodeIntoATooSmallBufferIsEmpty : State.reset.fault = none ∧ (6#16).toNat < 7 := by decide

theorem test_witness_EncodeIsIndependentOfTheDecoder :
    receiving.fault = none ∧ (∃ u, exec (.encode 0xE1 0x1234 7) receiving = .next u) ∧
    ∃ t, exec (.process 0x42) receiving = .next t :=
  ⟨rfl, (completes_iff _).1 (by decide), (completes_iff _).1 (by decide)⟩

theorem test_witness_RaisedFaultIsPrecise :
    (withWords [0x0300000000000000] receiving).fault = none ∧
    ∃ t, step (withWords [0x0300000000000000] receiving) = .next t ∧ t.fault ≠ none :=
  ⟨rfl, { receiving with
    index := 1, results := [.fault .noValidFrame]
    fault := some { cause := .noValidFrame, word := 0x0300000000000000 } }, next_of_field (by decide), by decide⟩

theorem test_witness_FaultedInstanceIsTerminal :
    faulted.fault = some { cause := .capacityExceedsBuffer, word := 0x0100004100000000 } ∧
    (withWords [0, 0x0100001000000000, 0x0300000000000000] faulted).pending =
      [0, 0x0100001000000000] ++ [0x0300000000000000] := by decide

theorem test_witness_FaultPriority :
    (withWords [0] faulted).fault ≠ none ∧
    ((withWords [0] receiving).fault = none ∧ decode 0 = .error .noOperation) ∧
    (decode 0x0100004100000000 = .ok (.init 65) ∧ receiving.config.bufSize < (65#16).toNat) ∧
    (decode 0x0200000000000042 = .ok (.process 0x42) ∧ State.reset.fault = none ∧ State.reset.bound = false) ∧
    (decode 0x0400000000000000 = .ok .parseShort ∧ receiving.frameValid = false) ∧
    (decode 0x0300000000000000 = .ok .parse ∧ (completed [1]).fault = none ∧ (completed [1]).frameValid = true ∧
      (completed [1]).len ≠ 26) := by decide

theorem test_witness_LineConditionsAreNotFaults :
    (Machine.Inv (at2 .awaitLenLo) ∧ Ready (at2 .awaitLenLo)) ∧
    ((completed [1]).fault = none ∧ (completed [1]).frameValid = true ∧ (completed [1]).len ≠ 2) ∧
    (State.reset.fault = none ∧ (6#16).toNat < 7) :=
  ⟨⟨inv_of_holds _ (by decide), rfl, rfl⟩, by decide, by decide⟩

theorem test_witness_ChannelsAreIsolated :
    stepChannel 1 [receiving, faulted] = .next [receiving, faulted] ∧ [receiving, faulted][1]? = some faulted ∧
    [at2 .awaitH1, faulted][1]? = [receiving, faulted][1]? := ⟨rfl, by decide, by decide⟩

theorem test_witness_AssembledWordsDecodeToTheirOperations :
    AsmLine.wf (.proc 256) = false ∧ AsmLine.wf (.encode 255 65535 65535) = true := by decide

theorem test_witness_FeedLineIsOneProcessPerByte :
    assemble (.feed ([0x42#8, 0xFF#8].map BitVec.toNat)) = some [0x0200000000000042, 0x02000000000000FF] := by decide

end Sys2Proof.Tests
end

section
/-! The laws of one PROCESS, of one operation and of one step, and the statements about the state that follow from them
(spec/10_state.md R21, R27, R31, R37). -/

namespace Sys2Proof.Machine

/-! ## The parse position after one byte (R21) -/

/-- The parse position after AWAIT_H1 has taken the byte `b` (R75). -/
def positionAfterH1 (b : Byte) : ParseState := if b = magic1 then .awaitH2 else .awaitH1

/-- The total function of R21: `stepH1` to `stepCkLo` with everything but the parse position left out, and with no
argument but those the rule lists. `processByte_state` ties it to the model. -/
def nextPosition (m : LenMode) (h : HdrResync) (p : ParseState) (len idx cap : Half) (b : Byte) : ParseState :=
  match p with
  | .awaitH1 => positionAfterH1 b
  | .awaitH2 =>
    if b = magic2 then
      match m with
      | .len1 => .awaitLen
      | .len2 => .awaitLenHi
    else
      match h with
      | .discard => .awaitH1
      | .reprocess => positionAfterH1 b
  | .awaitLen => if len1Accepts cap b then .rxPayload else .awaitH1
  | .awaitLenHi => .awaitLenLo
  | .awaitLenLo => if len2Accepts cap (len + zext16 b) then .rxPayload else .awaitH1
  | .rxPayload => if (if idx < len then idx + 1 else idx) = len then .awaitCkHi else .rxPayload
  | .awaitCkHi => .awaitCkLo
  | .awaitCkLo => .awaitH1

theorem stepH2_state (b : Byte) (s : State) :
    (stepH2 b s).state = nextPosition s.config.lenMode s.config.hdrResync .awaitH2 s.len s.idx s.cap b := by
  unfold stepH2 nextPosition
  split
  · cases s.config.lenMode <;> rfl
  · cases s.config.hdrResync <;> rfl

theorem stepLen_state (b : Byte) (s : State) :
    (stepLen b s).state = if len1Accepts s.cap b then .rxPayload else .awaitH1 := by
  unfold stepLen
  split <;> rfl

theorem stepLenLo_state (b : Byte) (s : State) :
    (stepLenLo b s).state = if len2Accepts s.cap (s.len + zext16 b) then .rxPayload else .awaitH1 := by
  unfold stepLenLo
  dsimp only
  split <;> rfl

theorem stepPayload_state {b : Byte} {s t : State} (h : stepPayload b s = .ok t) :
    t.state = if (if s.idx < s.len then s.idx + 1 else s.idx) = s.len then .awaitCkHi else s.state := by
  by_cases hi : s.idx < s.len
  · obtain ⟨-, rfl⟩ := stepPayload_store h hi
    simp [hi]
  · obtain rfl := stepPayload_noStore h hi
    rw [if_neg hi]
    rfl

/-- `processByte` moves the decoder where `nextPosition` says. -/
theorem processByte_state {b : Byte} {s t : State} {done : Bool} (h : processByte b s = .ok (t, done)) :
    t.state = nextPosition s.config.lenMode s.config.hdrResync s.state s.len s.idx s.cap b := by
  rcases processByte_cases h with
    ⟨hs, rfl, -⟩ | ⟨hs, rfl, -⟩ | ⟨hs, rfl, -⟩ | ⟨hs, rfl, -⟩ | ⟨hs, rfl, -⟩ | ⟨hs, hp, -⟩ | ⟨hs, rfl, -⟩ | ⟨hs, rfl, -⟩
  · rw [hs]; rfl
  · rw [hs, stepH2_state]
  · rw [hs, stepLen_state]; rfl
  · rw [hs]; rfl
  · rw [hs, stepLenLo_state]; rfl
  · rw [stepPayload_state hp, hs]; rfl
  · rw [hs]; rfl
  · rw [hs]; rfl

/-! ## What one byte leaves unchanged, and when it is consumed -/

/-- `t` has the fields of `s` that no step of the transition table writes (R75 to R84). -/
structure ByteFrame (s t : State) : Prop where
  config : t.config = s.config
  cap : t.cap = s.cap
  bound : t.bound = s.bound
  frameValid : t.frameValid = s.frameValid
  fault : t.fault = s.fault
  pending : t.pending = s.pending
  index : t.index = s.index
  results : t.results = s.results

theorem stepH1_frame (b : Byte) (s : State) : ByteFrame s (stepH1 b s) := by constructor <;> rfl

theorem stepH2_frame (b : Byte) (s : State) : ByteFrame s (stepH2 b s) := by
  unfold stepH2
  split
  · split <;> constructor <;> rfl
  · split <;> constructor <;> rfl

theorem stepLen_frame (b : Byte) (s : State) : ByteFrame s (stepLen b s) := by
  unfold stepLen
  split <;> constructor <;> rfl

theorem stepLenHi_frame (b : Byte) (s : State) : ByteFrame s (stepLenHi b s) := by constructor <;> rfl

theorem stepLenLo_frame (b : Byte) (s : State) : ByteFrame s (stepLenLo b s) := by
  unfold stepLenLo
  dsimp only
  split <;> constructor <;> rfl

theorem stepPayload_frame {b : Byte} {s t : State} (h : stepPayload b s = .ok t) : ByteFrame s t := by
  by_cases hi : s.idx < s.len
  · obtain ⟨-, rfl⟩ := stepPayload_store h hi
    constructor <;> rfl
  · obtain rfl := stepPayload_noStore h hi
    constructor <;> rfl

theorem stepCkHi_frame (b : Byte) (s : State) : ByteFrame s (stepCkHi b s) := by constructor <;> rfl

theorem stepCkLo_frame (b : Byte) (s : State) : ByteFrame s (stepCkLo b s).1 := by constructor <;> rfl

theorem processByte_frame {b : Byte} {s t : State} {done : Bool} (h : processByte b s = .ok (t, done)) :
    ByteFrame s t := by
  rcases processByte_cases h with
    ⟨-, rfl, -⟩ | ⟨-, rfl, -⟩ | ⟨-, rfl, -⟩ | ⟨-, rfl, -⟩ | ⟨-, rfl, -⟩ | ⟨-, hp, -⟩ | ⟨-, rfl, -⟩ | ⟨-, rfl, -⟩
  · exact stepH1_frame b s
  · exact stepH2_frame b s
  · exact stepLen_frame b s
  · exact stepLenHi_frame b s
  · exact stepLenLo_frame b s
  · exact stepPayload_frame hp
  · exact stepCkHi_frame b s
  · exact stepCkLo_frame b s

/-- RX_PAYLOAD consumes its byte when the storage has the slot that is to be filled. -/
theorem stepPayload_total (b : Byte) {s : State} (h : s.idx < s.len → s.idx.toNat < s.config.bufSize) :
    ∃ t, stepPayload b s = .ok t := by
  unfold stepPayload
  split
  next hi =>
    rw [(memWrite1_ok_iff _ b (addToSum b s) _).2 ⟨h hi, rfl⟩]
    exact ⟨_, rfl⟩
  next => exact ⟨_, rfl⟩

/-- The store of RX_PAYLOAD is the only access of PROCESS, so the only way it can stop. -/
theorem processByte_total (b : Byte) {s : State}
    (h : s.state = .rxPayload → s.idx < s.len → s.idx.toNat < s.config.bufSize) :
    ∃ t done, processByte b s = .ok (t, done) := by
  unfold processByte
  split
  case h_6 hs =>
    obtain ⟨t, ht⟩ := stepPayload_total b (h hs)
    rw [ht]
    exact ⟨t, false, rfl⟩
  all_goals exact ⟨_, _, rfl⟩

/-- In a good state the slot that RX_PAYLOAD fills is inside the storage (R36, R49). -/
theorem Inv.slotInside {s : State} (hinv : Inv s) (hs : s.state = .rxPayload) (hi : s.idx < s.len) :
    s.idx.toNat < s.config.bufSize := by
  have hlen : s.len ≤ s.cap := (hinv.lenFits (by rw [hs]; rfl)).1
  have hcap := hinv.capFits
  rw [BitVec.le_def] at hlen
  rw [BitVec.lt_def] at hi
  omega

/-! ## One operation -/

@[simp] theorem exec_init (cap : Half) (s : State) : exec (.init cap) s = execInit cap s := rfl
@[simp] theorem exec_process (b : Byte) (s : State) : exec (.process b) s = execProcess b s := rfl
@[simp] theorem exec_parse (s : State) : exec .parse s = execParse s := rfl
@[simp] theorem exec_parseShort (s : State) : exec .parseShort s = execParseShort s := rfl
@[simp] theorem exec_encode (cmd : Byte) (data cap : Half) (s : State) :
    exec (.encode cmd data cap) s = execEncode cmd data cap s := rfl

/-- INIT of a capacity that fits the storage binds it (R73). -/
theorem execInit_of_fits {s : State} {cap : Half} (hf : s.fault = none) (hcap : cap.toNat ≤ s.config.bufSize) :
    execInit cap s = .next (respond .unit (bindCapacity cap s)) :=
  (operate_noFault hf _).trans (if_neg (Nat.not_lt.2 hcap))

/-- PROCESS before the first INIT raises NOT_INITIALISED (R27, R74). -/
theorem execProcess_of_unbound {s : State} (b : Byte) (hf : s.fault = none) (hb : s.bound = false) :
    execProcess b s = .next (raiseFault .notInitialised (encode (.process b)) s) :=
  (operate_noFault hf _).trans (if_pos hb)

/-- PROCESS of a ready decoder answers what `processByte` makes of its byte (R74). -/
theorem execProcess_of_ready {s s' : State} {b : Byte} {done : Bool} (hr : Ready s)
    (hp : processByte b { s with frameValid := false } = .ok (s', done)) :
    execProcess b s = .next (respond (.done done) { s' with frameValid := done }) := by
  obtain ⟨hf, hb⟩ := hr
  unfold execProcess
  rw [operate_noFault hf, if_neg (by simp [hb]), hp]

/-- A PROCESS that consumed its byte moved the decoder where `nextPosition` says. -/
theorem execProcess_state {s t : State} {b : Byte} (hr : Ready s) (h : execProcess b s = .next t) :
    t.state = nextPosition s.config.lenMode s.config.hdrResync s.state s.len s.idx s.cap b := by
  obtain ⟨hf, hb⟩ := hr
  rcases execProcess_cases h with ⟨f, hf', -⟩ | ⟨-, hb', -⟩ | ⟨-, -, s', done, hp, rfl⟩
  · simp [hf] at hf'
  · simp [hb] at hb'
  · exact (processByte_state hp :)

/-- In a good state PROCESS of every byte answers a next state. -/
theorem execProcess_total {s : State} (b : Byte) (hinv : Inv s) : ∃ t, execProcess b s = .next t := by
  cases hf : s.fault with
  | some f => exact ⟨_, operate_faulted hf _⟩
  | none =>
    cases hb : s.bound with
    | false => exact ⟨_, execProcess_of_unbound b hf hb⟩
    | true =>
      obtain ⟨s', done, hp⟩ := processByte_total (s := { s with frameValid := false }) b hinv.slotInside
      exact ⟨_, execProcess_of_ready ⟨hf, hb⟩ hp⟩

/-- Everything INIT can answer. -/
theorem execInit_cases {s t : State} {cap : Half} (h : execInit cap s = .next t) :
    (∃ f, s.fault = some f ∧ t = respond (.fault f.cause) s) ∨
    (s.fault = none ∧ s.config.bufSize < cap.toNat ∧
      t = raiseFault .capacityExceedsBuffer (encode (.init cap)) s) ∨
    (s.fault = none ∧ cap.toNat ≤ s.config.bufSize ∧ t = respond .unit (bindCapacity cap s)) := by
  rcases operate_next h with ⟨f, hf, rfl⟩ | ⟨hf, hb⟩
  · exact .inl ⟨f, hf, rfl⟩
  · split at hb
    · next hlt => cases hb; exact .inr (.inl ⟨hf, hlt, rfl⟩)
    · next hle => cases hb; exact .inr (.inr ⟨hf, Nat.not_lt.1 hle, rfl⟩)

/-- Everything PARSE can answer as a next state. -/
theorem execParse_cases {s t : State} (h : execParse s = .next t) :
    (∃ f, s.fault = some f ∧ t = respond (.fault f.cause) s) ∨
    (s.fault = none ∧ s.frameValid = false ∧ t = raiseFault .noValidFrame (encode .parse) s) ∨
    (s.fault = none ∧ s.frameValid = true ∧ s.len ≠ measLen ∧ t = raiseFault .payloadLength (encode .parse) s) ∨
    (s.fault = none ∧ s.frameValid = true ∧ s.len = measLen ∧
      ∃ r, readRecord s = .ok r ∧ t = respond (.record r) s) := by
  rcases operate_next h with ⟨f, hf, rfl⟩ | ⟨hf, hb⟩
  · exact .inl ⟨f, hf, rfl⟩
  split at hb
  · next hv => cases hb; exact .inr (.inl ⟨hf, hv, rfl⟩)
  next hv =>
    have hv : s.frameValid = true := by simpa using hv
    split at hb
    · next hl => cases hb; exact .inr (.inr (.inl ⟨hf, hv, hl, rfl⟩))
    next hl =>
      split at hb
      · cases hb
      · next r hr => cases hb; exact .inr (.inr (.inr ⟨hf, hv, not_not.1 hl, r, hr, rfl⟩))

/-- Everything PARSE_SHORT can answer as a next state. -/
theorem execParseShort_cases {s t : State} (h : execParseShort s = .next t) :
    (∃ f, s.fault = some f ∧ t = respond (.fault f.cause) s) ∨
    (s.fault = none ∧ s.frameValid = false ∧ t = raiseFault .noValidFrame (encode .parseShort) s) ∨
    (s.fault = none ∧ s.frameValid = true ∧ s.len ≠ shortLen ∧ t = respond (.value 0) s) ∨
    (s.fault = none ∧ s.frameValid = true ∧ s.len = shortLen ∧
      ∃ v, memRead2 s 0 = .ok v ∧ t = respond (.value v) s) := by
  rcases operate_next h with ⟨f, hf, rfl⟩ | ⟨hf, hb⟩
  · exact .inl ⟨f, hf, rfl⟩
  split at hb
  · next hv => cases hb; exact .inr (.inl ⟨hf, hv, rfl⟩)
  next hv =>
    have hv : s.frameValid = true := by simpa using hv
    split at hb
    · next hl => cases hb; exact .inr (.inr (.inl ⟨hf, hv, hl, rfl⟩))
    next hl =>
      split at hb
      · cases hb
      · next v hr => cases hb; exact .inr (.inr (.inr ⟨hf, hv, not_not.1 hl, v, hr, rfl⟩))

/-- Everything ENCODE can answer. -/
theorem execEncode_cases {s t : State} {cmd : Byte} {data cap : Half} (h : execEncode cmd data cap s = .next t) :
    (∃ f, s.fault = some f ∧ t = respond (.fault f.cause) s) ∨
    (s.fault = none ∧ t = respond (.bytes (commandFrame cmd data cap)) s) := by
  rcases operate_next h with ⟨f, hf, rfl⟩ | ⟨hf, hb⟩
  · exact .inl ⟨f, hf, rfl⟩
  · cases hb
    exact .inr ⟨hf, rfl⟩

/-- Every operation that answers a next state only adds a result, raises a fault of its own word, binds a capacity, or
consumes a byte: the last two are all that writes the decoder. -/
theorem exec_cases {i : Instr} {s t : State} (h : exec i s = .next t) :
    (∃ r, t = respond r s) ∨
    (s.fault = none ∧ ∃ c, t = raiseFault c (encode i) s) ∨
    (s.fault = none ∧ ∃ cap, i = .init cap ∧ cap.toNat ≤ s.config.bufSize ∧
      t = respond .unit (bindCapacity cap s)) ∨
    (Ready s ∧ ∃ b s' done, i = .process b ∧ processByte b { s with frameValid := false } = .ok (s', done) ∧
      t = respond (.done done) { s' with frameValid := done }) := by
  cases i with
  | init cap =>
    rcases execInit_cases h with ⟨f, -, rfl⟩ | ⟨hf, -, rfl⟩ | ⟨hf, hcap, rfl⟩
    · exact .inl ⟨_, rfl⟩
    · exact .inr (.inl ⟨hf, _, rfl⟩)
    · exact .inr (.inr (.inl ⟨hf, cap, rfl, hcap, rfl⟩))
  | process b =>
    rcases execProcess_cases h with ⟨f, -, rfl⟩ | ⟨hf, -, rfl⟩ | ⟨hf, hb, s', done, hp, rfl⟩
    · exact .inl ⟨_, rfl⟩
    · exact .inr (.inl ⟨hf, _, rfl⟩)
    · exact .inr (.inr (.inr ⟨⟨hf, hb⟩, b, s', done, rfl, hp, rfl⟩))
  | parse =>
    rcases execParse_cases h with ⟨f, -, rfl⟩ | ⟨hf, -, rfl⟩ | ⟨hf, -, -, rfl⟩ | ⟨-, -, -, r, -, rfl⟩
    · exact .inl ⟨_, rfl⟩
    · exact .inr (.inl ⟨hf, _, rfl⟩)
    · exact .inr (.inl ⟨hf, _, rfl⟩)
    · exact .inl ⟨_, rfl⟩
  | parseShort =>
    rcases execParseShort_cases h with ⟨f, -, rfl⟩ | ⟨hf, -, rfl⟩ | ⟨-, -, -, rfl⟩ | ⟨-, -, -, v, -, rfl⟩
    · exact .inl ⟨_, rfl⟩
    · exact .inr (.inl ⟨hf, _, rfl⟩)
    · exact .inl ⟨_, rfl⟩
    · exact .inl ⟨_, rfl⟩
  | encode cmd data cap =>
    rcases execEncode_cases h with ⟨f, -, rfl⟩ | ⟨-, rfl⟩
    · exact .inl ⟨_, rfl⟩
    · exact .inl ⟨_, rfl⟩

/-- No operation touches the host's words or the index: taking the word has already moved both. -/
theorem exec_stream {i : Instr} {s t : State} (h : exec i s = .next t) :
    t.pending = s.pending ∧ t.index = s.index := by
  rcases exec_cases h with ⟨r, rfl⟩ | ⟨-, c, rfl⟩ | ⟨-, cap, -, -, rfl⟩ | ⟨-, b, s', done, -, hp, rfl⟩
  · exact ⟨rfl, rfl⟩
  · exact ⟨rfl, rfl⟩
  · exact ⟨rfl, rfl⟩
  · exact ⟨(processByte_frame hp).pending, (processByte_frame hp).index⟩

/-- `bound` changes by an INIT that sets it and by nothing else (R27). -/
theorem exec_bound {i : Instr} {s t : State} (h : exec i s = .next t) :
    t.bound = s.bound ∨ (t.bound = true ∧ ∃ cap, i = .init cap) := by
  rcases exec_cases h with ⟨r, rfl⟩ | ⟨-, c, rfl⟩ | ⟨-, cap, rfl, -, rfl⟩ | ⟨-, b, s', done, -, hp, rfl⟩
  · exact .inl rfl
  · exact .inl rfl
  · exact .inr ⟨rfl, cap, rfl⟩
  · exact .inl (processByte_frame hp).bound

/-! ## One step -/

/-- The step of a word that names no operation (R65). -/
theorem step_of_illegal {s : State} {w : Word} {rest : List Word} {e : IllegalWord} (hw : s.pending = w :: rest)
    (hd : decode w = .error e) : step s = illegalWord w { s with pending := rest, index := s.index + 1 } := by
  simp only [step, takeWord_cons hw, hd]

/-- The step of a word that names the operation `i` (R68, R121). -/
theorem step_of_legal {s : State} {w : Word} {rest : List Word} {i : Instr} (hw : s.pending = w :: rest)
    (hd : decode w = .ok i) : step s = exec i { s with pending := rest, index := s.index + 1 } := by
  simp only [step, takeWord_cons hw, hd]

theorem illegalWord_stream {w : Word} {s t : State} (h : illegalWord w s = .next t) :
    t.pending = s.pending ∧ t.index = s.index := by
  rcases illegalWord_next w s with ⟨f, -, hn⟩ | ⟨-, hn⟩
  · cases hn.symm.trans h
    exact ⟨rfl, rfl⟩
  · cases hn.symm.trans h
    exact ⟨rfl, rfl⟩

/-! ## The statements -/

/-- Settles O9: taking the word moves the stream, and neither an illegal word nor an operation moves it again. -/
theorem everyOperationAdvancesTheIndexByOne : Obligations.EveryOperationAdvancesTheIndexByOne := by
  intro s t w rest hw h
  cases hd : decode w with
  | error e => exact illegalWord_stream ((step_of_illegal hw hd).symm.trans h)
  | ok i => exact exec_stream ((step_of_legal hw hd).symm.trans h)

/-- Settles O30: the next position is `nextPosition` of what R21 lists, and the invariant keeps the one store of PROCESS
inside the storage. -/
theorem nextParsePositionDependsOnNothingElse : Obligations.NextParsePositionDependsOnNothingElse := by
  constructor
  · intro s s' t t' b hr hr' hstate hlen hidx hcap hmode hresync h h'
    calc t.state = nextPosition s.config.lenMode s.config.hdrResync s.state s.len s.idx s.cap b :=
          execProcess_state hr h
      _ = nextPosition s'.config.lenMode s'.config.hdrResync s'.state s'.len s'.idx s'.cap b := by
          rw [hmode, hresync, hstate, hlen, hidx, hcap]
      _ = t'.state := (execProcess_state hr' h').symm
  · intro s b hinv
    exact execProcess_total b hinv

/-- Settles O31: by the equations of INIT and of PROCESS before INIT, and by `exec_bound` for every operation. -/
theorem boundIsSetByInitAndNeverCleared : Obligations.BoundIsSetByInitAndNeverCleared := by
  refine ⟨State.powerOn_bound, ?_, ?_, ?_, ?_⟩
  · intro s cap hf hcap
    exact ⟨_, execInit_of_fits hf hcap, rfl⟩
  · intro s b hf hb
    exact execProcess_of_unbound b hf hb
  · intro s t i h hb
    rcases exec_bound h with heq | ⟨hset, -⟩
    · exact heq.trans hb
    · exact hset
  · intro s t i h hb hset
    rcases exec_bound h with heq | ⟨-, hinit⟩
    · simp [heq, hb] at hset
    · exact hinit

/-- Settles O11: reset is `State.powerOn` of the configuration it finds, whose fields have the values of R37. -/
theorem powerOnResetGivesTheResetValues : Obligations.PowerOnResetGivesTheResetValues := by
  intro s
  simp [powerOnReset]

end Sys2Proof.Machine
end

section
/-! The FrameBuffer under PROCESS and under a stream of payload bytes, and the statement about it (spec/20_memory.md
R40). -/

namespace Sys2Proof.Machine

/-! ## Consecutive writes -/

/-- The memory with `bs` at the offsets `a`, `a + 1`, …, written in that order. -/
def Memory.writeBytes (m : Memory) (a : Nat) : List Byte → Memory
  | [] => m
  | b :: bs => (m.write a b).writeBytes (a + 1) bs

@[simp] theorem Memory.writeBytes_nil (m : Memory) (a : Nat) : m.writeBytes a [] = m := rfl

@[simp] theorem Memory.writeBytes_cons (m : Memory) (a : Nat) (b : Byte) (bs : List Byte) :
    m.writeBytes a (b :: bs) = (m.write a b).writeBytes (a + 1) bs := rfl

theorem Memory.read_writeBytes_outside (m : Memory) {a k : Nat} (bs : List Byte) (h : k < a ∨ a + bs.length ≤ k) :
    (m.writeBytes a bs).read k = m.read k := by
  induction bs generalizing m a with
  | nil => rfl
  | cons b bs ih =>
    rw [List.length_cons] at h
    calc ((m.write a b).writeBytes (a + 1) bs).read k = (m.write a b).read k := ih _ (by omega)
      _ = m.read k := m.read_write_other b (by omega)

theorem Memory.read_writeBytes_inside (m : Memory) (a : Nat) {j : Nat} (bs : List Byte) (h : j < bs.length) :
    (m.writeBytes a bs).read (a + j) = bs[j]? := by
  induction bs generalizing m a j with
  | nil => cases h
  | cons b bs ih =>
    cases j with
    | zero =>
      calc ((m.write a b).writeBytes (a + 1) bs).read a = (m.write a b).read a :=
            Memory.read_writeBytes_outside _ bs (.inl a.lt_succ_self)
        _ = some b := m.read_write_same a b
    | succ j =>
      have hrest := ih (m.write a b) (a + 1) (Nat.lt_of_succ_lt_succ h)
      rwa [Nat.add_right_comm] at hrest

/-! ## The one store of PROCESS -/

theorem stepH2_buf (b : Byte) (s : State) : (stepH2 b s).buf = s.buf := by
  unfold stepH2
  split <;> split <;> rfl

theorem stepLen_buf (b : Byte) (s : State) : (stepLen b s).buf = s.buf := by
  unfold stepLen
  split <;> rfl

theorem stepLenLo_buf (b : Byte) (s : State) : (stepLenLo b s).buf = s.buf := by
  unfold stepLenLo
  dsimp only
  split <;> rfl

/-- Of all rows of the transition table only RX_PAYLOAD with a slot to fill writes the FrameBuffer. -/
theorem processByte_buf {b : Byte} {s t : State} {done : Bool} (h : processByte b s = .ok (t, done)) :
    t.buf = s.buf ∨ (s.state = .rxPayload ∧ s.idx < s.len ∧ t.buf = s.buf.write s.idx.toNat b) := by
  rcases processByte_cases h with
    ⟨-, rfl, -⟩ | ⟨-, rfl, -⟩ | ⟨-, rfl, -⟩ | ⟨-, rfl, -⟩ | ⟨-, rfl, -⟩ | ⟨hs, hp, -⟩ | ⟨-, rfl, -⟩ | ⟨-, rfl, -⟩
  · exact .inl rfl
  · exact .inl (stepH2_buf b s)
  · exact .inl (stepLen_buf b s)
  · exact .inl rfl
  · exact .inl (stepLenLo_buf b s)
  · by_cases hi : s.idx < s.len
    · obtain ⟨-, rfl⟩ := stepPayload_store hp hi
      exact .inr ⟨hs, hi, rfl⟩
    · obtain rfl := stepPayload_noStore hp hi
      exact .inl rfl
  · exact .inl rfl
  · exact .inl rfl

/-- PROCESS leaves the FrameBuffer as it is, or stores its byte at `idx` (R40). -/
theorem execProcess_buf {b : Byte} {s t : State} (h : execProcess b s = .next t) :
    t.buf = s.buf ∨
    (Ready s ∧ s.state = .rxPayload ∧ s.idx < s.len ∧ t.buf = s.buf.write s.idx.toNat b) := by
  rcases execProcess_cases h with ⟨f, -, rfl⟩ | ⟨-, -, rfl⟩ | ⟨hf, hb, s', done, hp, rfl⟩
  · exact .inl rfl
  · exact .inl rfl
  · rcases processByte_buf hp with hbuf | ⟨hs, hi, hbuf⟩
    · exact .inl hbuf
    · exact .inr ⟨⟨hf, hb⟩, hs, hi, hbuf⟩

/-- The RX_PAYLOAD row of the transition table. -/
theorem processByte_of_stepPayload {b : Byte} {s t : State} (hs : s.state = .rxPayload)
    (hp : stepPayload b s = .ok t) : processByte b s = .ok (t, false) := by
  simp only [processByte, hs, hp]

/-- A ready decoder in RX_PAYLOAD with a slot to fill, inside the storage, sums its byte and fills the slot (R82). -/
theorem execProcess_store {s : State} (b : Byte) (hr : Ready s) (hs : s.state = .rxPayload) (hi : s.idx < s.len)
    (hslot : s.idx.toNat < s.config.bufSize) :
    execProcess b s = .next (respond (.done false) (closePayload { addToSum b s with
      buf := s.buf.write s.idx.toNat b, idx := s.idx + 1, frameValid := false })) := by
  obtain ⟨t, ht⟩ := stepPayload_total b (s := { s with frameValid := false }) fun _ => hslot
  obtain ⟨-, rfl⟩ := stepPayload_store ht hi
  exact execProcess_of_ready hr (processByte_of_stepPayload hs ht)

/-! ## A stream of payload bytes -/

/-- The decoder consumes bytes and stores them while the payload has slots to fill, all of them inside the storage. Kept
by every such byte, the last one included (`TakesPayload.next`); `Inv` gives it in RX_PAYLOAD (`Inv.takesPayload`). -/
structure TakesPayload (s : State) : Prop where
  ready : Ready s
  lenFits : s.len.toNat ≤ s.config.bufSize
  inPayload : s.idx < s.len → s.state = .rxPayload

theorem Inv.takesPayload {s : State} (hinv : Inv s) (hr : Ready s) (hs : s.state = .rxPayload) : TakesPayload s where
  ready := hr
  lenFits := Nat.le_trans (BitVec.le_def.1 (hinv.lenFits (by rw [hs]; rfl)).1) hinv.capFits
  inPayload := fun _ => hs

theorem idx_succ_toNat {i n : Half} (h : i < n) : (i + 1).toNat = i.toNat + 1 := by
  bv_omega

theorem TakesPayload.next {s : State} (htp : TakesPayload s) (b : Byte) (hi : s.idx < s.len) :
    ∃ t, execProcess b s = .next t ∧ TakesPayload t ∧ t.len = s.len ∧ t.idx.toNat = s.idx.toNat + 1 ∧
      t.buf = s.buf.write s.idx.toNat b := by
  obtain ⟨hr, hfits, hin⟩ := htp
  have hs := hin hi
  have hslot : s.idx.toNat < s.config.bufSize := Nat.lt_of_lt_of_le (BitVec.lt_def.1 hi) hfits
  refine ⟨_, execProcess_store b hr hs hi hslot, ⟨hr, hfits, fun hlt => ?_⟩, rfl, idx_succ_toNat hi, rfl⟩
  have hne : s.idx + 1 ≠ s.len := BitVec.ne_of_lt hlt
  exact (if_neg hne).trans hs

/-- Payload bytes for which there are slots go to consecutive offsets from `idx` on. -/
theorem TakesPayload.feed {s : State} (htp : TakesPayload s) (payload : List Byte)
    (hroom : s.idx.toNat + payload.length ≤ s.len.toNat) :
    ∃ t, feed payload s = .next t ∧ t.buf = s.buf.writeBytes s.idx.toNat payload := by
  induction payload generalizing s with
  | nil => exact ⟨s, rfl, rfl⟩
  | cons b bs ih =>
    rw [List.length_cons] at hroom
    obtain ⟨s', hexec, htp', hlen, hidx, hbuf⟩ := htp.next b (BitVec.lt_def.2 (by omega))
    obtain ⟨t, hfeed, ht⟩ := ih htp' (by rw [hidx, hlen]; omega)
    refine ⟨t, ?_, ?_⟩
    · rw [Machine.feed, exec_process, hexec, andThen_next, hfeed]
    · rw [ht, hbuf, hidx, Memory.writeBytes_cons]

/-! ## The statements -/

/-- Settles O29: a PROCESS has the one store of `execProcess_buf`, and the stores of a stream are `Memory.writeBytes`. -/
theorem payloadBytesLandInArrivalOrder : Obligations.PayloadBytesLandInArrivalOrder := by
  constructor
  · intro s t b a h hne
    rcases execProcess_buf h with hbuf | ⟨-, hs, hi, hbuf⟩
    · exact absurd (by rw [hbuf]) hne
    · by_cases ha : a = s.idx.toNat
      · exact ⟨hs, hi, ha, by rw [hbuf, ha, Memory.read_write_same]⟩
      · exact absurd (by rw [hbuf, Memory.read_write_other _ b ha]) hne
  · intro s payload hinv hr hs hidx hroom
    have hzero : s.idx.toNat = 0 := by rw [hidx]; rfl
    obtain ⟨t, hfeed, hbuf⟩ := (hinv.takesPayload hr hs).feed payload (by omega)
    rw [hzero] at hbuf
    refine ⟨t, hfeed, fun j hj => ?_, fun a ha => ?_⟩
    · simpa [hbuf] using s.buf.read_writeBytes_inside 0 payload hj
    · rw [hbuf, Memory.read_writeBytes_outside _ payload (.inr (by omega))]

end Sys2Proof.Machine
end

section
/-! The legal words are the words of `encode`: what the decoder accepts and what the rows of the opcode map select, and
the statements about illegal words that follow from it (spec/30_encoding.md R61, R62, R65). -/

namespace Sys2Proof

/-! ## BYTE as the low byte of DATA (R60) -/

theorem byteField_eq_low_dataField (w : Word) : byteField w = (dataField w).extractLsb' 0 8 :=
  (BitVec.extractLsb'_extractLsb'_of_le (by decide)).symm

@[simp] theorem byteField_packWord_zero_append (o r : Byte) (c : Half) (q m b : Byte) :
    byteField (packWord o r c q m (0#8 ++ b)) = b := by
  rw [byteField_eq_low_dataField, dataField_packWord]
  exact BitVec.extractLsb'_append_eq_right

/-- A half whose high byte is masked to 0 is its low byte, zero-extended. -/
theorem eq_low_of_and_highMask {d : Half} (h : d &&& (0xFF#8 ++ 0x00#8) = 0#16) : d = 0#8 ++ d.extractLsb' 0 8 := by
  have hmask : (0xFF#8 ++ 0x00#8 : Half).extractLsb' 8 8 = BitVec.allOnes 8 := by decide
  have hhigh : d.extractLsb' 8 8 = 0#8 := by
    calc d.extractLsb' 8 8 = (d &&& (0xFF#8 ++ 0x00#8)).extractLsb' 8 8 := by
          rw [BitVec.extractLsb'_and, hmask, BitVec.and_allOnes]
      _ = 0#8 := by rw [h]; rfl
  calc d = d.extractLsb' 8 8 ++ d.extractLsb' 0 8 :=
        (@BitVec.extractLsb'_append_extractLsb' 8 8 d).symm
    _ = 0#8 ++ d.extractLsb' 0 8 := by rw [hhigh]

/-! ## The decoder and the encoder (R68) -/

/-- The decoder gives back every operation the encoder spells. -/
theorem decode_encode (i : Instr) : decode (encode i) = .ok i := by
  cases i with
  | init cap => simp [decode, encode, low32_eq_zero]
  | process b => simp [decode, encode, mid40_eq_zero]
  | parse => rfl
  | parseShort => rfl
  | encode cmd data cap => simp [decode, encode]

/-- A word the decoder accepts is the word of the operation it answers. -/
theorem eq_encode_of_decode_ok {w : Word} {i : Instr} (h : decode w = .ok i) : w = encode i := by
  obtain ⟨⟨hr0, hr1⟩, hcases⟩ := decode_ok_cases h
  refine (packWord_fields w).symm.trans ?_
  rcases hcases with ⟨ho, ⟨hm, hd⟩, rfl⟩ | ⟨ho, ⟨hc, hm, hd⟩, rfl⟩ | ⟨ho, ⟨hc, hm, hd⟩, rfl⟩ | ⟨ho, ⟨hc, hm, hd⟩, rfl⟩ |
    ⟨ho, rfl⟩
  · rw [ho, hr0, hr1, hm, hd, encode]
  · rw [ho, hr0, hc, hr1, hm, hd, encode]
  · rw [ho, hr0, hc, hr1, hm, hd, encode]
  · rw [ho, hr0, hc, hr1, hm, hd, encode]
  · rw [ho, hr0, hr1, encode]

theorem decode_error_iff (w : Word) : (∃ e, decode w = .error e) ↔ ∀ i, decode w ≠ .ok i := by
  cases decode w <;> simp

/-- The illegal words are those the encoder spells for no operation. -/
theorem decode_error_iff_ne_encode (w : Word) : (∃ e, decode w = .error e) ↔ ∀ i, w ≠ encode i := by
  rw [decode_error_iff]
  exact forall_congr' fun i => not_congr ⟨eq_encode_of_decode_ok, fun hw => hw ▸ decode_encode i⟩

/-! ## The rows of the opcode map (R63) -/

theorem byte_and_fullMask (b : Byte) : b &&& 0xFF#8 = b := BitVec.and_allOnes

theorem half_and_fullMask (h : Half) : h &&& 0xFFFF#16 = h := BitVec.and_allOnes

/-- A row whose match and mask are given field by field compares the word field by field. -/
theorem OpcodeRow.selects_packWord_iff {w : Word} {name : String} {o r : Byte} {c : Half} {q m : Byte} {d : Half}
    {o' r' : Byte} {c' : Half} {q' m' : Byte} {d' : Half} :
    OpcodeRow.selects ⟨name, packWord o r c q m d, packWord o' r' c' q' m' d'⟩ w = true ↔
      opcField w &&& o' = o ∧ rsv0Field w &&& r' = r ∧ capField w &&& c' = c ∧ rsv1Field w &&& q' = q ∧
      cmdField w &&& m' = m ∧ dataField w &&& d' = d := by
  rw [OpcodeRow.selects, decide_eq_true_iff, ← packWord_inj, ← packWord_and, packWord_fields]

theorem opcodeRow_init (cap : Half) : opcodeRow (.init cap) =
    ⟨"INIT", packWord 0x01#8 0#8 0#16 0#8 0#8 0#16, packWord 0xFF#8 0xFF#8 0#16 0xFF#8 0xFF#8 0xFFFF#16⟩ := rfl

theorem opcodeRow_process (b : Byte) : opcodeRow (.process b) =
    ⟨"PROCESS", packWord 0x02#8 0#8 0#16 0#8 0#8 0#16,
      packWord 0xFF#8 0xFF#8 0xFFFF#16 0xFF#8 0xFF#8 (0xFF#8 ++ 0x00#8)⟩ := rfl

theorem opcodeRow_parse : opcodeRow .parse =
    ⟨"PARSE", packWord 0x03#8 0#8 0#16 0#8 0#8 0#16, packWord 0xFF#8 0xFF#8 0xFFFF#16 0xFF#8 0xFF#8 0xFFFF#16⟩ := rfl

theorem opcodeRow_parseShort : opcodeRow .parseShort =
    ⟨"PARSE_SHORT", packWord 0x04#8 0#8 0#16 0#8 0#8 0#16,
      packWord 0xFF#8 0xFF#8 0xFFFF#16 0xFF#8 0xFF#8 0xFFFF#16⟩ := rfl

theorem opcodeRow_encode (cmd : Byte) (data cap : Half) : opcodeRow (.encode cmd data cap) =
    ⟨"ENCODE", packWord 0x05#8 0#8 0#16 0#8 0#8 0#16, packWord 0xFF#8 0xFF#8 0#16 0xFF#8 0#8 0#16⟩ := rfl

/-- The row of an operation selects only words the encoder spells, each for an operation with that row. -/
theorem exists_eq_encode_of_selects {w : Word} {i : Instr} (h : (opcodeRow i).selects w = true) :
    ∃ j, opcodeRow j = opcodeRow i ∧ w = encode j := by
  suffices hj : ∃ j, opcodeRow j = opcodeRow i ∧
      packWord (opcField w) (rsv0Field w) (capField w) (rsv1Field w) (cmdField w) (dataField w) = encode j by
    rwa [packWord_fields] at hj
  cases i with
  | init cap =>
    simp only [opcodeRow_init, OpcodeRow.selects_packWord_iff, byte_and_fullMask, half_and_fullMask] at h
    obtain ⟨ho, hr0, -, hr1, hm, hd⟩ := h
    exact ⟨.init (capField w), rfl, by rw [ho, hr0, hr1, hm, hd, encode]⟩
  | process b =>
    simp only [opcodeRow_process, OpcodeRow.selects_packWord_iff, byte_and_fullMask, half_and_fullMask] at h
    obtain ⟨ho, hr0, hc, hr1, hm, hd⟩ := h
    exact ⟨.process ((dataField w).extractLsb' 0 8), rfl, by
      rw [ho, hr0, hc, hr1, hm, encode, ← eq_low_of_and_highMask hd]⟩
  | parse =>
    simp only [opcodeRow_parse, OpcodeRow.selects_packWord_iff, byte_and_fullMask, half_and_fullMask] at h
    obtain ⟨ho, hr0, hc, hr1, hm, hd⟩ := h
    exact ⟨.parse, rfl, by rw [ho, hr0, hc, hr1, hm, hd, encode]⟩
  | parseShort =>
    simp only [opcodeRow_parseShort, OpcodeRow.selects_packWord_iff, byte_and_fullMask, half_and_fullMask] at h
    obtain ⟨ho, hr0, hc, hr1, hm, hd⟩ := h
    exact ⟨.parseShort, rfl, by rw [ho, hr0, hc, hr1, hm, hd, encode]⟩
  | encode cmd data cap =>
    simp only [opcodeRow_encode, OpcodeRow.selects_packWord_iff, byte_and_fullMask] at h
    obtain ⟨ho, hr0, -, hr1, -, -⟩ := h
    exact ⟨.encode (cmdField w) (dataField w) (capField w), rfl, by rw [ho, hr0, hr1, encode]⟩

theorem opcodeRow_selects_encode (i : Instr) : (opcodeRow i).selects (encode i) = true := by
  cases i with
  | init cap => exact Laws.SelectsOwnRow.init cap
  | process b => exact Laws.SelectsOwnRow.process b
  | parse => exact Laws.SelectsOwnRow.parse
  | parseShort => exact Laws.SelectsOwnRow.parseShort
  | encode cmd data cap => exact Laws.SelectsOwnRow.encode cmd data cap

/-- A row selects exactly the words that spell an operation of that row. -/
theorem opcodeRow_selects_iff {w : Word} {i : Instr} :
    (opcodeRow i).selects w = true ↔ ∃ j, opcodeRow j = opcodeRow i ∧ w = encode j := by
  constructor
  · exact exists_eq_encode_of_selects
  · rintro ⟨j, hrow, rfl⟩
    rw [← hrow]
    exact opcodeRow_selects_encode j

theorem mem_opcodeTable_iff (r : OpcodeRow) : r ∈ opcodeTable ↔ ∃ i, r = opcodeRow i := by
  constructor
  · intro hr
    simp only [opcodeTable, List.mem_cons, List.not_mem_nil, or_false] at hr
    rcases hr with rfl | rfl | rfl | rfl | rfl <;> exact ⟨_, rfl⟩
  · rintro ⟨i, rfl⟩
    cases i <;> simp [opcodeTable, opcodeRow]

/-- The rows of the opcode map together select the words the encoder spells. -/
theorem exists_row_selects_iff (w : Word) : (∃ r ∈ opcodeTable, r.selects w = true) ↔ ∃ i, w = encode i := by
  constructor
  · rintro ⟨r, hr, hsel⟩
    obtain ⟨i, rfl⟩ := (mem_opcodeTable_iff r).1 hr
    obtain ⟨j, -, hj⟩ := opcodeRow_selects_iff.1 hsel
    exact ⟨j, hj⟩
  · rintro ⟨i, rfl⟩
    exact ⟨opcodeRow i, (mem_opcodeTable_iff _).2 ⟨i, rfl⟩, opcodeRow_selects_iff.2 ⟨i, rfl, rfl⟩⟩

/-! ## What the encoder writes into the fields (R61, R62) -/

theorem opcField_encode_range (i : Instr) : 0x00#8 < opcField (encode i) ∧ opcField (encode i) < 0x06#8 := by
  cases i <;> simp [encode]

theorem rsvFields_encode (i : Instr) : rsv0Field (encode i) = 0#8 ∧ rsv1Field (encode i) = 0#8 := by
  cases i <;> simp [encode]

/-- Every field the operation does not use is 0 in its word. -/
theorem unusedFields_encode (i : Instr) :
    (opcField (encode i) = 0x01#8 → (encode i).extractLsb' 0 32 = 0#32) ∧
    (opcField (encode i) = 0x02#8 → (encode i).extractLsb' 8 40 = 0#40) ∧
    (opcField (encode i) = 0x03#8 → (encode i).extractLsb' 0 56 = 0#56) ∧
    (opcField (encode i) = 0x04#8 → (encode i).extractLsb' 0 56 = 0#56) := by
  cases i with
  | init cap => simp [encode, low32_eq_zero]
  | process b => simp [encode, mid40_eq_zero]
  | parse => simp [encode, low56_eq_zero]
  | parseShort => simp [encode, low56_eq_zero]
  | encode cmd data cap => simp [encode]

/-! ## The statements -/

/-- Settles O4: a legal word is the word of an operation, whose fields are those of `unusedFields_encode`. -/
theorem reservedAndUnusedFieldsMustBeZero : Obligations.ReservedAndUnusedFieldsMustBeZero := by
  intro w
  simp only [decode_error_iff_ne_encode]
  refine ⟨?_, ?_, ?_, ?_, ?_, ?_⟩
  · rintro hrsv i rfl
    obtain ⟨hr0, hr1⟩ := rsvFields_encode i
    exact hrsv.elim (· hr0) (· hr1)
  · rintro ho hne i rfl
    obtain ⟨hinit, -, -, -⟩ := unusedFields_encode i
    exact hne (hinit ho)
  · rintro ho hne i rfl
    obtain ⟨-, hprocess, -, -⟩ := unusedFields_encode i
    exact hne (hprocess ho)
  · rintro ho hne i rfl
    obtain ⟨-, -, hparse, -⟩ := unusedFields_encode i
    exact hne (hparse ho)
  · rintro ho hne i rfl
    obtain ⟨-, -, -, hparseShort⟩ := unusedFields_encode i
    exact hne (hparseShort ho)
  · intro ho hr0 hr1
    have hw : encode (.encode (cmdField w) (dataField w) (capField w)) = w := by
      calc encode (.encode (cmdField w) (dataField w) (capField w))
          = packWord (opcField w) (rsv0Field w) (capField w) (rsv1Field w) (cmdField w) (dataField w) := by
            rw [ho, hr0, hr1, encode]
        _ = w := packWord_fields w
    calc decode w = decode (encode (.encode (cmdField w) (dataField w) (capField w))) := by rw [hw]
      _ = .ok (.encode (cmdField w) (dataField w) (capField w)) := decode_encode _

end Sys2Proof

namespace Sys2Proof.Machine

theorem illegalWord_of_noFault {w : Word} {s : State} (hf : s.fault = none) :
    illegalWord w s = .next (raiseFault .illegalOperation w s) :=
  operate_noFault hf _

/-- The step of an illegal word with no recorded fault (R65, R108). -/
theorem step_of_illegal_noFault {s : State} {w : Word} {rest : List Word} {e : IllegalWord} (hf : s.fault = none)
    (hw : s.pending = w :: rest) (hd : decode w = .error e) :
    step s = .next (raiseFault .illegalOperation w { s with pending := rest, index := s.index + 1 }) := by
  rw [step_of_illegal hw hd, illegalWord_of_noFault]
  exact hf

/-- Settles O5: both the decoder and the rows single out the words of `encode`, whose codes are 0x01 to 0x05; and the step
of an illegal word with no recorded fault is `raiseFault`. -/
theorem illegalWordsAreThoseNoRowSelects : Obligations.IllegalWordsAreThoseNoRowSelects := by
  intro w
  refine ⟨?_, ?_, ?_⟩
  · calc (∃ e, decode w = .error e) ↔ ¬ ∃ i, w = encode i := by rw [decode_error_iff_ne_encode, not_exists]
      _ ↔ ¬ ∃ r ∈ opcodeTable, r.selects w = true := by rw [exists_row_selects_iff]
      _ ↔ ∀ r ∈ opcodeTable, r.selects w = false := by simp
  · rw [decode_error_iff_ne_encode]
    rintro hopc i rfl
    obtain ⟨hpos, hlt⟩ := opcField_encode_range i
    rcases hopc with hzero | hle
    · exact BitVec.ne_of_lt hpos hzero.symm
    · exact BitVec.not_le.2 hlt hle
  · intro s rest e hf hw hd
    exact step_of_illegal_noFault hf hw hd

end Sys2Proof.Machine
end

section
/-! One PROCESS of a ready decoder, row by row of the transition table, and the statements about the rows that accept no
length (spec/41_frame_decoder.md R75 to R78, R80, R82 to R84). -/

namespace Sys2Proof.Machine

/-! ## A 16-bit value from its two bytes (R14, R15) -/

theorem bePair_toNat (hi lo : Byte) : (bePair hi lo).toNat = hi.toNat * 256 + lo.toNat := by
  rw [bePair, BitVec.toNat_append, ← Nat.shiftLeft_add_eq_or_of_lt lo.isLt, Nat.shiftLeft_eq]

theorem zext16_toNat (b : Byte) : (zext16 b).toNat = b.toNat :=
  BitVec.toNat_setWidth_of_le (by decide)

/-- The shift of R80 and R83 gives the pair with a zero low byte. -/
theorem highPart_eq_bePair (b : Byte) : highPart b = bePair b 0x00 := by
  apply BitVec.eq_of_toNat_eq
  rw [bePair_toNat, highPart, BitVec.toNat_shiftLeft, zext16_toNat, Nat.shiftLeft_eq]
  bv_omega

/-- The addition of R84 has no carry where the low byte is still zero. -/
theorem bePair_zero_add_zext16 (hi lo : Byte) : bePair hi 0x00 + zext16 lo = bePair hi lo := by
  apply BitVec.eq_of_toNat_eq
  rw [BitVec.toNat_add, bePair_toNat, bePair_toNat, zext16_toNat]
  bv_omega

/-! ## The rows of the transition table (R74) -/

theorem processByte_of_awaitH1 {s : State} (b : Byte) (hs : s.state = .awaitH1) :
    processByte b s = .ok (stepH1 b s, false) := by
  simp only [processByte, hs]

theorem processByte_of_awaitLenHi {s : State} (b : Byte) (hs : s.state = .awaitLenHi) :
    processByte b s = .ok (stepLenHi b s, false) := by
  simp only [processByte, hs]

theorem processByte_of_awaitCkHi {s : State} (b : Byte) (hs : s.state = .awaitCkHi) :
    processByte b s = .ok (stepCkHi b s, false) := by
  simp only [processByte, hs]

theorem processByte_of_awaitCkLo {s : State} (b : Byte) (hs : s.state = .awaitCkLo) :
    processByte b s = .ok (stepCkLo b s) := by
  simp only [processByte, hs]

/-! ## The cases of AWAIT_H2 (R76 to R78) -/

theorem processByte_of_awaitH2 {s : State} (b : Byte) (hs : s.state = .awaitH2) :
    processByte b s = .ok (stepH2 b s, false) := by
  simp only [processByte, hs]

theorem processByte_of_magic2 {s : State} (hs : s.state = .awaitH2) :
    processByte magic2 s =
      .ok ({ addToSum magic2 s with state := if s.config.lenMode = .len1 then .awaitLen else .awaitLenHi }, false) := by
  rw [processByte_of_awaitH2 _ hs, stepH2, if_pos rfl]
  cases s.config.lenMode <;> rfl

theorem processByte_of_mismatch_discard {s : State} {b : Byte} (hs : s.state = .awaitH2)
    (hresync : s.config.hdrResync = .discard) (hb : b ≠ magic2) :
    processByte b s = .ok ({ addToSum b s with state := .awaitH1 }, false) := by
  rw [processByte_of_awaitH2 b hs, stepH2, if_neg hb, hresync]

/-- R78's net effect: the byte is taken as AWAIT_H1 takes it, which overwrites the sum. -/
theorem processByte_of_mismatch_reprocess {s : State} {b : Byte} (hs : s.state = .awaitH2)
    (hresync : s.config.hdrResync = .reprocess) (hb : b ≠ magic2) :
    processByte b s = .ok (stepH1 b s, false) := by
  rw [processByte_of_awaitH2 b hs, stepH2, if_neg hb, hresync]
  rfl

/-! ## RX_PAYLOAD with no slot to fill, and the done bit (R82, R84) -/

/-- A ready decoder in RX_PAYLOAD with no slot to fill sums its byte and stores nothing (R82, R87). -/
theorem execProcess_noStore {s : State} (b : Byte) (hr : Ready s) (hs : s.state = .rxPayload) (hi : ¬ s.idx < s.len) :
    execProcess b s = .next (respond (.done false) (closePayload { addToSum b s with frameValid := false })) := by
  have hp : stepPayload b { s with frameValid := false } =
      .ok (closePayload (addToSum b { s with frameValid := false })) := if_neg hi
  exact execProcess_of_ready hr (processByte_of_stepPayload hs hp)

/-- Only the second checksum byte can complete a frame (R84). -/
theorem processByte_done {b : Byte} {s t : State} (h : processByte b s = .ok (t, true)) : s.state = .awaitCkLo := by
  rcases processByte_cases h with
    ⟨-, -, ⟨⟩⟩ | ⟨-, -, ⟨⟩⟩ | ⟨-, -, ⟨⟩⟩ | ⟨-, -, ⟨⟩⟩ | ⟨-, -, ⟨⟩⟩ | ⟨-, -, ⟨⟩⟩ | ⟨-, -, ⟨⟩⟩ | ⟨hs, -, -⟩
  exact hs

/-- A PROCESS that returns 1 found the decoder in AWAIT_CK_LO; a fault is another result than a done bit. -/
theorem execProcess_done {b : Byte} {s t : State} (h : execProcess b s = .next t)
    (hres : t.results = s.results ++ [.done true]) : s.state = .awaitCkLo := by
  rcases execProcess_cases h with ⟨f, -, rfl⟩ | ⟨-, -, rfl⟩ | ⟨-, -, s', done, hp, rfl⟩
  · simp at hres
  · simp at hres
  · have hframe := (processByte_frame hp).results
    obtain rfl : done = true := by simpa [hframe] using hres
    exact (processByte_done hp :)

/-! ## The statements -/

/-- Settles O25: with a slot to fill by `execProcess_store`, without one by `execProcess_noStore`. -/
theorem processInRxPayload : Obligations.ProcessInRxPayload := by
  intro s b hr hs hslot
  by_cases hi : s.idx < s.len
  · refine ⟨_, execProcess_store b hr hs hi (hslot hi), rfl, rfl, rfl, rfl, rfl, rfl, rfl, rfl, fun _ => ⟨?_, ?_⟩,
      fun hn => absurd hi hn, ?_⟩
    · exact idx_succ_toNat hi
    · exact fun a => s.buf.read_write s.idx.toNat a b
    · simp [hs]
  · refine ⟨_, execProcess_noStore b hr hs hi, rfl, rfl, rfl, rfl, rfl, rfl, rfl, rfl, fun hlt => absurd hlt hi,
      fun _ => ⟨rfl, fun _ => rfl⟩, ?_⟩
    simp [hs]

/-- Settles O27: the row of AWAIT_CK_LO, where the checksum's two bytes add up without a carry, and `execProcess_done`. -/
theorem processInAwaitCkLo : Obligations.ProcessInAwaitCkLo := by
  constructor
  · intro s hi b hr hs hchk
    have hsum : s.chk + zext16 b = bePair hi b := by rw [hchk, bePair_zero_add_zext16]
    rw [← hsum]
    exact execProcess_of_ready hr (processByte_of_awaitCkLo b hs)
  · intro s t b h hres
    exact execProcess_done h hres

/-- Settles O18: the row of AWAIT_H1. -/
theorem processInAwaitH1 : Obligations.ProcessInAwaitH1 := by
  intro s b hr hs
  exact execProcess_of_ready hr (processByte_of_awaitH1 b hs)

/-- Settles O19: the row of AWAIT_H2 for the second magic byte, whose next state depends on the length mode. -/
theorem processSecondMagicByte : Obligations.ProcessSecondMagicByte := by
  intro s hr hs
  exact execProcess_of_ready hr (processByte_of_magic2 hs)

/-- Settles O20: the row of AWAIT_H2 for any other byte under DISCARD. -/
theorem processDiscardsAHeaderMismatch : Obligations.ProcessDiscardsAHeaderMismatch := by
  intro s b hr hs hresync hb
  exact execProcess_of_ready hr (processByte_of_mismatch_discard hs hresync hb)

/-- Settles O21: the row of AWAIT_H2 for any other byte under REPROCESS is that of AWAIT_H1. -/
theorem processReprocessesAHeaderMismatch : Obligations.ProcessReprocessesAHeaderMismatch := by
  intro s b hr hs hresync hb
  exact execProcess_of_ready hr (processByte_of_mismatch_reprocess hs hresync hb)

/-- Settles O23: the row of AWAIT_LEN_HI, with the shifted byte as a pair. -/
theorem processInAwaitLenHi : Obligations.ProcessInAwaitLenHi := by
  intro s b hr hs
  rw [← highPart_eq_bePair]
  exact execProcess_of_ready hr (processByte_of_awaitLenHi b hs)

/-- Settles O26: the row of AWAIT_CK_HI, with the shifted byte as a pair. -/
theorem processInAwaitCkHi : Obligations.ProcessInAwaitCkHi := by
  intro s b hr hs
  rw [← highPart_eq_bePair]
  exact execProcess_of_ready hr (processByte_of_awaitCkHi b hs)

end Sys2Proof.Machine
end

section
/-! The command frame of ENCODE and ENCODE's answer without a fault, and the statement about a buffer that is too small
(spec/43_command_encoder.md R101, R102). -/

namespace Sys2Proof.Machine

/-- A buffer below 7 bytes gets no byte of the frame (R102). -/
theorem commandFrame_of_cap_lt {cap : Half} (cmd : Byte) (data : Half) (hcap : cap < cmdLen) :
    commandFrame cmd data cap = [] :=
  if_pos hcap

/-- Without a recorded fault ENCODE only adds its byte list to the results (R101). -/
theorem execEncode_of_noFault {s : State} (cmd : Byte) (data cap : Half) (hf : s.fault = none) :
    execEncode cmd data cap s = .next (respond (.bytes (commandFrame cmd data cap)) s) :=
  operate_noFault hf _

/-- Settles O47: ENCODE adds the command frame to the results, and that of a buffer below 7 bytes is empty. -/
theorem encodeIntoATooSmallBufferIsEmpty : Obligations.EncodeIntoATooSmallBufferIsEmpty := by
  intro s cmd data cap hf hcap
  have hlt : cap < cmdLen := BitVec.lt_def.2 hcap
  calc exec (.encode cmd data cap) s
      = .next (respond (.bytes (commandFrame cmd data cap)) s) := execEncode_of_noFault cmd data cap hf
    _ = .next (respond (.bytes []) s) := by rw [commandFrame_of_cap_lt cmd data hlt]

end Sys2Proof.Machine
end

section
/-! Faults of the block: the equations of the operations that raise one or that meet a recorded one, what follows for
one step, and the statements about faults (spec/60_exceptions.md R108 to R111). -/

namespace Sys2Proof.Machine

/-! ## One operation -/

/-- While a fault is recorded every operation only answers it (R109). -/
theorem exec_of_fault {s : State} {f : FaultRecord} (hf : s.fault = some f) (i : Instr) :
    exec i s = .next (respond (.fault f.cause) s) := by
  cases i with
  | init cap => exact operate_faulted hf _
  | process b => exact operate_faulted hf _
  | parse => exact operate_faulted hf _
  | parseShort => exact operate_faulted hf _
  | encode cmd data cap => exact operate_faulted hf _

/-- While a fault is recorded an illegal word only answers it and is no second fault (R109, R110). -/
theorem illegalWord_of_fault {s : State} {f : FaultRecord} (hf : s.fault = some f) (w : Word) :
    illegalWord w s = .next (respond (.fault f.cause) s) :=
  operate_faulted hf _

/-- INIT of a capacity beyond the storage raises CAPACITY_EXCEEDS_BUFFER (R73). -/
theorem execInit_of_exceeds {s : State} {cap : Half} (hf : s.fault = none) (hcap : s.config.bufSize < cap.toNat) :
    execInit cap s = .next (raiseFault .capacityExceedsBuffer (encode (.init cap)) s) :=
  (operate_noFault hf _).trans (if_pos hcap)

/-- PARSE outside the read window raises NO_VALID_FRAME, whatever the length (R96). -/
theorem execParse_of_noFrame {s : State} (hf : s.fault = none) (hv : s.frameValid = false) :
    execParse s = .next (raiseFault .noValidFrame (encode .parse) s) :=
  (operate_noFault hf _).trans (if_pos hv)

/-- PARSE of a completed payload of another length raises PAYLOAD_LENGTH (R96). -/
theorem execParse_of_otherLength {s : State} (hf : s.fault = none) (hv : s.frameValid = true) (hl : s.len ≠ measLen) :
    execParse s = .next (raiseFault .payloadLength (encode .parse) s) :=
  (operate_noFault hf _).trans ((if_neg (by simp [hv])).trans (if_pos hl))

/-- PARSE_SHORT outside the read window raises NO_VALID_FRAME (R97). -/
theorem execParseShort_of_noFrame {s : State} (hf : s.fault = none) (hv : s.frameValid = false) :
    execParseShort s = .next (raiseFault .noValidFrame (encode .parseShort) s) :=
  (operate_noFault hf _).trans (if_pos hv)

/-- PARSE_SHORT of a completed payload of another length answers 0x0000 (R97). -/
theorem execParseShort_of_otherLength {s : State} (hf : s.fault = none) (hv : s.frameValid = true)
    (hl : s.len ≠ shortLen) : execParseShort s = .next (respond (.value 0) s) :=
  (operate_noFault hf _).trans ((if_neg (by simp [hv])).trans (if_pos hl))

/-- An operation after which a fault is recorded, where none was, did nothing but raise it with its own word. -/
theorem exec_raised {i : Instr} {s t : State} (hf : s.fault = none) (h : exec i s = .next t) (ht : t.fault ≠ none) :
    ∃ c, t = raiseFault c (encode i) s := by
  rcases exec_cases h with ⟨r, rfl⟩ | ⟨-, c, rfl⟩ | ⟨-, cap, -, -, rfl⟩ | ⟨-, b, s', done, -, hp, rfl⟩
  · exact absurd hf ht
  · exact ⟨c, rfl⟩
  · exact absurd hf ht
  · exact absurd ((processByte_frame hp).fault.trans hf) ht

/-- A ready decoder that a PROCESS answers stays without a fault and answers a done bit (R74, R111). -/
theorem execProcess_done_of_ready {b : Byte} {s t : State} (hr : Ready s) (h : execProcess b s = .next t) :
    t.fault = none ∧ ∃ done, t.results = s.results ++ [.done done] := by
  obtain ⟨hf, hb⟩ := hr
  rcases execProcess_cases h with ⟨f, hf', -⟩ | ⟨-, hb', -⟩ | ⟨-, -, s', done, hp, rfl⟩
  · simp [hf] at hf'
  · simp [hb] at hb'
  · obtain ⟨-, -, -, -, hfault, -, -, hresults⟩ := processByte_frame hp
    exact ⟨hfault.trans hf, done, by simp [hresults]⟩

/-! ## One step, and any number of them -/

/-- While a fault is recorded a step takes its word, legal or not, and only answers the fault (R109). -/
theorem step_of_fault {s : State} {f : FaultRecord} {w : Word} {rest : List Word} (hf : s.fault = some f)
    (hw : s.pending = w :: rest) :
    step s = .next (respond (.fault f.cause) { s with pending := rest, index := s.index + 1 }) := by
  cases hd : decode w with
  | error e =>
    rw [step_of_illegal hw hd, illegalWord_of_fault]
    exact hf
  | ok i =>
    rw [step_of_legal hw hd, exec_of_fault]
    exact hf

/-- The word that a step records is the word it took, where its operation raises a fault (R108). -/
theorem step_of_raised {s : State} {w : Word} {rest : List Word} {i : Instr} {c : Cause} (hw : s.pending = w :: rest)
    (hd : decode w = .ok i)
    (h : exec i { s with pending := rest, index := s.index + 1 } =
      .next (raiseFault c (encode i) { s with pending := rest, index := s.index + 1 })) :
    step s = .next (raiseFault c w { s with pending := rest, index := s.index + 1 }) := by
  rw [step_of_legal hw hd, h, ← eq_encode_of_decode_ok hd]

/-- A step after which a fault is recorded, where none was, did nothing but take its word and raise the fault (R108). -/
theorem step_raised {s t : State} {w : Word} {rest : List Word} (hf : s.fault = none) (hw : s.pending = w :: rest)
    (h : step s = .next t) (ht : t.fault ≠ none) :
    ∃ c, t = raiseFault c w { s with pending := rest, index := s.index + 1 } := by
  cases hd : decode w with
  | error e =>
    cases (step_of_illegal_noFault hf hw hd).symm.trans h
    exact ⟨_, rfl⟩
  | ok i =>
    rw [step_of_legal hw hd] at h
    rw [eq_encode_of_decode_ok hd]
    exact exec_raised hf h ht

/-- While a fault is recorded, as many steps as there are words in `ws` take them and answer the fault once each. -/
theorem runSteps_of_fault {s : State} {f : FaultRecord} {ws rest : List Word} (hf : s.fault = some f)
    (hw : s.pending = ws ++ rest) :
    runSteps ws.length s = .next { s with
      pending := rest
      index := s.index + ws.length
      results := s.results ++ List.replicate ws.length (.fault f.cause) } := by
  induction ws generalizing s with
  | nil =>
    obtain rfl : s.pending = rest := hw
    simp [runSteps]
  | cons w ws ih =>
    have hcons : s.pending = w :: (ws ++ rest) := hw
    calc runSteps (w :: ws).length s
        = andThen (step s) (runSteps ws.length) := rfl
      _ = runSteps ws.length (respond (.fault f.cause) { s with pending := ws ++ rest, index := s.index + 1 }) := by
        rw [step_of_fault hf hcons, andThen_next]
      _ = _ := by
        refine (ih ?_ ?_).trans ?_
        · exact hf
        · rfl
        · simp [List.replicate_succ, Nat.add_assoc, Nat.add_comm 1]

/-! ## The statements -/

/-- Settles O50: `raiseFault` is all that a step which comes to record a fault has done. -/
theorem raisedFaultIsPrecise : Obligations.RaisedFaultIsPrecise := by
  intro s t w rest hf hw h ht
  exact step_raised hf hw h ht

/-- Settles O51, by induction on the words; reset is `State.powerOn`, which records no fault. -/
theorem faultedInstanceIsTerminal : Obligations.FaultedInstanceIsTerminal := by
  intro s f hf
  exact ⟨fun ws rest hw => runSteps_of_fault hf hw, State.powerOn_fault s.config⟩

/-- Settles O53: a PROCESS answers in every good state and a ready one adds a done bit; the other two have equations. -/
theorem lineConditionsAreNotFaults : Obligations.LineConditionsAreNotFaults := by
  refine ⟨?_, ?_, ?_⟩
  · intro s b hinv hr
    obtain ⟨t, h⟩ := execProcess_total b hinv
    obtain ⟨hfault, done, hresults⟩ := execProcess_done_of_ready hr h
    exact ⟨t, done, h, hfault, hresults⟩
  · intro s hf hv hl
    exact ⟨_, execParseShort_of_otherLength hf hv hl, hf, rfl⟩
  · intro s cmd data cap hf hcap
    exact ⟨_, encodeIntoATooSmallBufferIsEmpty s cmd data cap hf hcap, hf, rfl⟩

/-- Settles O52: a recorded fault comes before the decoder, an illegal word before any operation, and each operation's
checks come in the order of its own equations. -/
theorem faultPriority : Obligations.FaultPriority := by
  intro s w rest hw
  refine ⟨?_, ?_, ?_, ?_, ?_, ?_⟩
  · intro f hf
    exact step_of_fault hf hw
  · rintro hf ⟨e, hd⟩
    exact step_of_illegal_noFault hf hw hd
  · intro hf cap hd hcap
    exact step_of_raised hw hd (execInit_of_exceeds hf hcap)
  · intro hf b hd hb
    exact step_of_raised hw hd (execProcess_of_unbound b hf hb)
  · rintro hf (hd | hd) hv
    · exact step_of_raised hw hd (execParse_of_noFrame hf hv)
    · exact step_of_raised hw hd (execParseShort_of_noFrame hf hv)
  · intro hf hd hv hl
    exact step_of_raised hw hd (execParse_of_otherLength hf hv hl)

end Sys2Proof.Machine
end

section
/-! The decoder, the encoder and the opcode map as inverses, and the words of the assembler (spec/30_encoding.md R63,
R66, R68, R71). -/

namespace Sys2Proof

/-! ## The one row of a legal word (R68) -/

/-- No two operations share a word. -/
theorem encode_injective {i j : Instr} (h : encode i = encode j) : i = j := by
  have hok : (Except.ok i : Except IllegalWord Instr) = .ok j := by rw [← decode_encode i, h, decode_encode]
  exact Except.ok.inj hok

/-- A row selects the word of an operation exactly when it is that operation's row. -/
theorem selects_encode_iff {r : OpcodeRow} (hr : r ∈ opcodeTable) (i : Instr) :
    r.selects (encode i) = true ↔ r = opcodeRow i := by
  obtain ⟨j, rfl⟩ := (mem_opcodeTable_iff r).1 hr
  rw [opcodeRow_selects_iff]
  constructor
  · rintro ⟨k, hrow, hword⟩
    rw [← hrow, encode_injective hword]
  · intro hrow
    exact ⟨i, hrow.symm, rfl⟩

theorem opcodeTable_nodup : opcodeTable.Nodup := by decide

theorem opcodeTable_filter_selects_encode (i : Instr) :
    opcodeTable.filter (·.selects (encode i)) = [opcodeRow i] := by
  have hmem : opcodeRow i ∈ opcodeTable := (mem_opcodeTable_iff _).2 ⟨i, rfl⟩
  calc opcodeTable.filter (·.selects (encode i))
      = opcodeTable.filter (· == opcodeRow i) := by
        refine List.filter_congr fun r hr => ?_
        rw [Bool.eq_iff_iff, selects_encode_iff hr i, beq_iff_eq]
    _ = [opcodeRow i] := by
        rw [List.filter_beq, List.count_eq_one_of_mem opcodeTable_nodup hmem, List.replicate_one]

/-! ## The statements -/

/-- Settles O1. -/
theorem decodeOfEncodeIsTheOperation : Obligations.DecodeOfEncodeIsTheOperation := by
  intro i
  exact decode_encode i

/-- Settles O2. -/
theorem legalWordIsTheEncodingOfItsOperation : Obligations.LegalWordIsTheEncodingOfItsOperation := by
  intro w i h
  exact (eq_encode_of_decode_ok h).symm

/-- Settles O3: a legal word is the word of its operation, whose row alone selects it, and an illegal word is the word of
no operation, while every selected word is (`exists_row_selects_iff`). -/
theorem exactlyTheLegalWordsSelectOneRow : Obligations.ExactlyTheLegalWordsSelectOneRow := by
  intro w
  split
  next i hd =>
    rw [eq_encode_of_decode_ok hd]
    exact opcodeTable_filter_selects_encode i
  next e hd =>
    refine List.filter_eq_nil_iff.2 fun r hr hsel => ?_
    obtain ⟨i, hw⟩ := (exists_row_selects_iff w).1 ⟨r, hr, hsel⟩
    exact (decode_error_iff_ne_encode w).1 ⟨e, hd⟩ i hw

/-- Settles O6: five of the words are those of `encode`, and three closed words are refused. -/
theorem sampleWordsDecode : Obligations.SampleWordsDecode :=
  ⟨decode_encode (.init 32), decode_encode (.process 0x42), decode_encode .parse, decode_encode .parseShort,
    decode_encode (.encode 0xE1 0x1234 16), by decide, by decide, by decide⟩

end Sys2Proof

namespace Sys2Proof.Machine

theorem assemble_of_wf {l : AsmLine} (h : l.wf = true) : assemble l = some ((expandLine l).map encode) := if_pos h

theorem assemble_of_not_wf {l : AsmLine} (h : l.wf = false) : assemble l = none := if_neg (by simp [h])

/-- Settles O55: the words of a line are those of `encode`, which the decoder inverts. -/
theorem assembledWordsDecodeToTheirOperations : Obligations.AssembledWordsDecodeToTheirOperations := by
  intro l
  refine ⟨assemble_of_not_wf, fun h => ⟨_, assemble_of_wf h, ?_⟩⟩
  rw [List.map_map]
  exact List.map_congr_left fun i _ => decode_encode i

end Sys2Proof.Machine
end

section
/-! The invariant of the decoder under every row of the transition table, every operation and every step, and the
statements about good states and recorded faults (spec/10_state.md R36, R37, spec/60_exceptions.md R107). -/

namespace Sys2Proof.Machine

/-! ## The low byte of a 16-bit value (R14) -/

theorem loByte_toNat (v : Half) : (loByte v).toNat = v.toNat % 256 := by
  simp [loByte, BitVec.extractLsb'_toNat]

theorem hiByte_toNat (v : Half) : (hiByte v).toNat = v.toNat / 256 := by
  have hv := v.isLt
  simp only [hiByte, BitVec.extractLsb'_toNat, Nat.shiftRight_eq_div_pow]
  omega

@[simp] theorem hiByte_bePair (hi lo : Byte) : hiByte (bePair hi lo) = hi := by
  apply BitVec.eq_of_toNat_eq
  have hlo := lo.isLt
  rw [hiByte_toNat, bePair_toNat]
  omega

@[simp] theorem loByte_bePair (hi lo : Byte) : loByte (bePair hi lo) = lo := by
  apply BitVec.eq_of_toNat_eq
  have hlo := lo.isLt
  rw [loByte_toNat, bePair_toNat]
  omega

@[simp] theorem bePair_hiByte_loByte (v : Half) : bePair (hiByte v) (loByte v) = v := by
  apply BitVec.eq_of_toNat_eq
  rw [bePair_toNat, hiByte_toNat, loByte_toNat]
  omega

theorem loByte_highPart (b : Byte) : loByte (highPart b) = 0 := by
  rw [highPart_eq_bePair, loByte_bePair]

/-! ## What the invariant does not read -/

/-- The invariant says nothing of the recorded fault and of the host's side. -/
theorem Inv.of_host {s : State} (h : Inv s) (f : Option FaultRecord) (p : List Word) (n : Nat) (rs : List Result) :
    Inv { s with fault := f, pending := p, index := n, results := rs } :=
  ⟨h.configWf, h.stateAllowed, h.unbound, h.capFits, h.lenFits, h.payloadOpen, h.payloadFull, h.lenLowZero,
    h.chkLowZero, h.received, h.validFrame, h.bufWf, h.bufInside⟩

theorem Inv.respond {s : State} (h : Inv s) (r : Result) : Inv (respond r s) := h.of_host _ _ _ _

theorem Inv.raiseFault {s : State} (h : Inv s) (c : Cause) (w : Word) : Inv (raiseFault c w s) := h.of_host _ _ _ _

/-- Closing the read window keeps the invariant. -/
theorem Inv.withoutFrame {s : State} (h : Inv s) : Inv { s with frameValid := false } :=
  { h with
    unbound := fun hb => ⟨(h.unbound hb).1, rfl⟩
    validFrame := fun hv => Bool.noConfusion hv }

/-! ## INIT and reset (R37, R73) -/

theorem inv_powerOn {c : Config} (hc : c.wf = true) : Inv (State.powerOn c) where
  configWf := hc
  stateAllowed := rfl
  unbound := fun _ => ⟨rfl, rfl⟩
  capFits := Nat.zero_le _
  lenFits := nofun
  payloadOpen := nofun
  payloadFull := nofun
  lenLowZero := nofun
  chkLowZero := nofun
  received := nofun
  validFrame := nofun
  bufWf := rfl
  bufInside := fun _ _ => rfl

theorem Inv.bindCapacity {s : State} (h : Inv s) {cap : Half} (hcap : cap.toNat ≤ s.config.bufSize) :
    Inv (bindCapacity cap s) where
  configWf := h.configWf
  stateAllowed := rfl
  unbound := nofun
  capFits := hcap
  lenFits := nofun
  payloadOpen := nofun
  payloadFull := nofun
  lenLowZero := nofun
  chkLowZero := nofun
  received := nofun
  validFrame := nofun
  bufWf := h.bufWf
  bufInside := h.bufInside

/-! ## The rows of the transition table, for a decoder that has been bound and whose read window is closed -/

/-- A bound decoder in a good state whose read window is closed: where PROCESS consumes its byte. -/
structure GoodBound (s : State) : Prop where
  inv : Inv s
  bound : s.bound = true
  noFrame : s.frameValid = false

/-- A row that moves to a position before the payload keeps the invariant if it does not write the FrameBuffer. -/
theorem GoodBound.toHeader {s t : State} (h : GoodBound s) (hframe : ByteFrame s t) (hbuf : t.buf = s.buf)
    (hallowed : t.state.allowed s.config.lenMode = true) (hrec : t.state.receiving = false)
    (hlow : t.state = .awaitLenLo → loByte t.len = 0) : Inv t where
  configWf := by rw [hframe.config]; exact h.inv.configWf
  stateAllowed := by rw [hframe.config]; exact hallowed
  unbound := fun hb => by simp [hframe.bound, h.bound] at hb
  capFits := by rw [hframe.config, hframe.cap]; exact h.inv.capFits
  lenFits := fun hr => by simp [hrec] at hr
  payloadOpen := fun hs => by simp [hs, ParseState.receiving] at hrec
  payloadFull := by rintro (hs | hs) <;> simp [hs, ParseState.receiving] at hrec
  lenLowZero := hlow
  chkLowZero := fun hs => by simp [hs, ParseState.receiving] at hrec
  received := fun hr => by simp [hrec] at hr
  validFrame := fun hv => by simp [hframe.frameValid, h.noFrame] at hv
  bufWf := by rw [hbuf]; exact h.inv.bufWf
  bufInside := by rw [hframe.config, hbuf]; exact h.inv.bufInside

/-- A row that accepts a length within the capacity opens the payload (R79, R81). -/
theorem GoodBound.toPayload {s t : State} (h : GoodBound s) (hframe : ByteFrame s t) (hbuf : t.buf = s.buf)
    (hs : t.state = .rxPayload) (hlen : t.len ≤ s.cap) (hidx : t.idx = 0) : Inv t where
  configWf := by rw [hframe.config]; exact h.inv.configWf
  stateAllowed := by rw [hs]; rfl
  unbound := fun hb => by simp [hframe.bound, h.bound] at hb
  capFits := by rw [hframe.config, hframe.cap]; exact h.inv.capFits
  lenFits := fun _ => by rw [hframe.cap, hidx]; exact ⟨hlen, by simp [BitVec.le_def]⟩
  payloadOpen := fun _ => by
    rw [hidx]
    by_cases hz : t.len = 0
    · exact .inr ⟨rfl, hz⟩
    · exact .inl (by bv_omega)
  payloadFull := by rintro (hs' | hs') <;> simp [hs] at hs'
  lenLowZero := fun hs' => by simp [hs] at hs'
  chkLowZero := fun hs' => by simp [hs] at hs'
  received := fun _ a ha => by simp [hidx] at ha
  validFrame := fun hv => by simp [hframe.frameValid, h.noFrame] at hv
  bufWf := by rw [hbuf]; exact h.inv.bufWf
  bufInside := by rw [hframe.config, hbuf]; exact h.inv.bufInside

/-- The positions AWAIT_H2 moves to, the length position only in its own mode (R20, R76). -/
theorem stepH2_state_cases (b : Byte) (s : State) :
    (stepH2 b s).state = .awaitH1 ∨ (stepH2 b s).state = .awaitH2 ∨
    ((stepH2 b s).state = .awaitLen ∧ s.config.lenMode = .len1) ∨
    ((stepH2 b s).state = .awaitLenHi ∧ s.config.lenMode = .len2) := by
  rw [stepH2_state]
  simp only [nextPosition, positionAfterH1]
  split
  · cases s.config.lenMode <;> simp
  · cases s.config.hdrResync
    · simp
    · by_cases hb : b = magic1 <;> simp [hb]

theorem stepH1_state_cases (b : Byte) (s : State) : (stepH1 b s).state = .awaitH2 ∨ (stepH1 b s).state = .awaitH1 :=
  ite_eq_or_eq _ _ _

theorem GoodBound.stepH1 {s : State} (h : GoodBound s) (b : Byte) : Inv (stepH1 b s) := by
  have hframe := stepH1_frame b s
  rcases stepH1_state_cases b s with hs | hs
  · exact h.toHeader hframe rfl (by rw [hs]; rfl) (by rw [hs]; rfl) (by simp [hs])
  · exact h.toHeader hframe rfl (by rw [hs]; rfl) (by rw [hs]; rfl) (by simp [hs])

theorem GoodBound.stepH2 {s : State} (h : GoodBound s) (b : Byte) : Inv (stepH2 b s) := by
  have hframe := stepH2_frame b s
  have hbuf := stepH2_buf b s
  rcases stepH2_state_cases b s with hs | hs | ⟨hs, hm⟩ | ⟨hs, hm⟩
  · exact h.toHeader hframe hbuf (by rw [hs]; rfl) (by rw [hs]; rfl) (by simp [hs])
  · exact h.toHeader hframe hbuf (by rw [hs]; rfl) (by rw [hs]; rfl) (by simp [hs])
  · exact h.toHeader hframe hbuf (by rw [hs, hm]; rfl) (by rw [hs]; rfl) (by simp [hs])
  · exact h.toHeader hframe hbuf (by rw [hs, hm]; rfl) (by rw [hs]; rfl) (by simp [hs])

/-! ### The two tests on a length (R79, R81, R88) -/

theorem len1Accepts_iff {cap : Half} {b : Byte} :
    len1Accepts cap b = true ↔ 2 ≤ b.toNat ∧ b.toNat ≤ cap.toNat := by
  simp [len1Accepts, ckAllow, BitVec.le_def, zext16_toNat]

theorem sub_ckAllow_toNat {l : Half} (h : 2 ≤ l.toNat) : (l - ckAllow).toNat = l.toNat - 2 := by
  unfold ckAllow
  bv_omega

theorem zext16_sub_ckAllow_toNat {b : Byte} (h : 2 ≤ b.toNat) : (zext16 b - ckAllow).toNat = b.toNat - 2 := by
  rw [sub_ckAllow_toNat, zext16_toNat]
  rwa [zext16_toNat]

theorem len2Accepts_iff {cap l : Half} :
    len2Accepts cap l = true ↔ 2 ≤ l.toNat ∧ l.toNat - 2 ≤ cap.toNat := by
  rw [len2Accepts, Bool.and_eq_true, decide_eq_true_iff, decide_eq_true_iff, BitVec.le_def, BitVec.le_def]
  exact and_congr_right fun h => by rw [sub_ckAllow_toNat h]

theorem stepLen_of_accepts {s : State} {b : Byte} (h : len1Accepts s.cap b = true) :
    stepLen b s = { addToSum b s with len := zext16 b - ckAllow, idx := 0, state := .rxPayload } := if_pos h

theorem stepLen_of_rejects {s : State} {b : Byte} (h : ¬ len1Accepts s.cap b = true) :
    stepLen b s = { addToSum b s with state := .awaitH1 } := if_neg h

theorem stepLenLo_of_accepts {s : State} {b : Byte} (h : len2Accepts s.cap (s.len + zext16 b) = true) :
    stepLenLo b s =
      { addToSum b s with len := s.len + zext16 b - ckAllow, idx := 0, state := .rxPayload } := if_pos h

theorem stepLenLo_of_rejects {s : State} {b : Byte} (h : ¬ len2Accepts s.cap (s.len + zext16 b) = true) :
    stepLenLo b s = { addToSum b s with len := s.len + zext16 b - ckAllow, state := .awaitH1 } := if_neg h

theorem GoodBound.stepLen {s : State} (h : GoodBound s) (b : Byte) : Inv (stepLen b s) := by
  have hframe := stepLen_frame b s
  by_cases hacc : len1Accepts s.cap b = true
  · rw [stepLen_of_accepts hacc] at hframe ⊢
    obtain ⟨hge, hle⟩ := len1Accepts_iff.1 hacc
    have hlen : zext16 b - ckAllow ≤ s.cap := BitVec.le_def.2 (by rw [zext16_sub_ckAllow_toNat hge]; omega)
    exact h.toPayload hframe rfl rfl hlen rfl
  · rw [stepLen_of_rejects hacc] at hframe ⊢
    exact h.toHeader hframe rfl rfl rfl nofun

theorem GoodBound.stepLenHi {s : State} (h : GoodBound s) (hs : s.state = .awaitLenHi) (b : Byte) :
    Inv (stepLenHi b s) := by
  have hallowed := h.inv.stateAllowed
  rw [hs] at hallowed
  exact h.toHeader (stepLenHi_frame b s) rfl hallowed rfl fun _ => loByte_highPart b

theorem GoodBound.stepLenLo {s : State} (h : GoodBound s) (b : Byte) : Inv (stepLenLo b s) := by
  have hframe := stepLenLo_frame b s
  by_cases hacc : len2Accepts s.cap (s.len + zext16 b) = true
  · rw [stepLenLo_of_accepts hacc] at hframe ⊢
    obtain ⟨hge, hle⟩ := len2Accepts_iff.1 hacc
    exact h.toPayload hframe rfl rfl (BitVec.le_def.2 (by rwa [sub_ckAllow_toNat hge])) rfl
  · rw [stepLenLo_of_rejects hacc] at hframe ⊢
    exact h.toHeader hframe rfl rfl rfl nofun

/-! ### The payload and the checksum (R82 to R84) -/

/-- A row of the payload keeps the invariant if it closes the payload exactly when the index has reached the length. -/
theorem GoodBound.inPayload {s t : State} (h : GoodBound s) (hframe : ByteFrame s t)
    (hs : t.state = if t.idx = t.len then .awaitCkHi else .rxPayload) (hlen : t.len ≤ s.cap) (hidx : t.idx ≤ t.len)
    (hrec : ∀ a, a < t.idx.toNat → ∃ v, t.buf.read a = some v) (hwf : t.buf.wf = true)
    (hin : ∀ a, s.config.bufSize ≤ a → t.buf.read a = none) : Inv t where
  configWf := by rw [hframe.config]; exact h.inv.configWf
  stateAllowed := by rw [hs]; split <;> rfl
  unbound := fun hb => by simp [hframe.bound, h.bound] at hb
  capFits := by rw [hframe.config, hframe.cap]; exact h.inv.capFits
  lenFits := fun _ => by rw [hframe.cap]; exact ⟨hlen, hidx⟩
  payloadOpen := fun hrx => by
    have hne : t.idx ≠ t.len := fun he => by simp [hs, he] at hrx
    exact .inl (BitVec.lt_of_le_ne hidx hne)
  payloadFull := fun hck => by
    by_contra hne
    rw [hs, if_neg hne] at hck
    simp at hck
  lenLowZero := fun hlo => by rw [hs] at hlo; split at hlo <;> cases hlo
  chkLowZero := fun hlo => by rw [hs] at hlo; split at hlo <;> cases hlo
  received := fun _ => hrec
  validFrame := fun hv => by simp [hframe.frameValid, h.noFrame] at hv
  bufWf := hwf
  bufInside := by rw [hframe.config]; exact hin

theorem GoodBound.stepPayload {s t : State} (h : GoodBound s) {b : Byte} (hs : s.state = .rxPayload)
    (hp : stepPayload b s = .ok t) : Inv t := by
  have hframe := stepPayload_frame hp
  have hrx : s.state.receiving = true := by rw [hs]; rfl
  obtain ⟨hlen, hidx⟩ := h.inv.lenFits hrx
  by_cases hi : s.idx < s.len
  · obtain ⟨hslot, rfl⟩ := stepPayload_store hp hi
    refine h.inPayload hframe ?_ hlen ?_ (fun a ha => ?_) (s.buf.write_wf _ _ h.inv.bufWf) fun a ha => ?_
    · simp [hs]
    · exact BitVec.le_def.2 ((idx_succ_toNat hi).trans_le (BitVec.lt_def.1 hi))
    · have ha : a < s.idx.toNat + 1 := ha.trans_eq (idx_succ_toNat hi)
      simp only [closePayload_buf, Memory.read_write]
      split
      · exact ⟨b, rfl⟩
      · next hne => exact h.inv.received hrx a (by omega)
    · exact (s.buf.read_write_other b (by omega)).trans (h.inv.bufInside a ha)
  · obtain rfl := stepPayload_noStore hp hi
    refine h.inPayload hframe ?_ hlen hidx (h.inv.received hrx) h.inv.bufWf h.inv.bufInside
    rw [closePayload_state, addToSum_state, hs]
    rfl

theorem GoodBound.stepCkHi {s : State} (h : GoodBound s) (hs : s.state = .awaitCkHi) (b : Byte) :
    Inv (stepCkHi b s) :=
  have hrx : s.state.receiving = true := by rw [hs]; rfl
  { configWf := h.inv.configWf
    stateAllowed := rfl
    unbound := fun hb => absurd (h.bound.symm.trans hb) (by decide)
    capFits := h.inv.capFits
    lenFits := fun _ => h.inv.lenFits hrx
    payloadOpen := nofun
    payloadFull := fun _ => h.inv.payloadFull (.inl hs)
    lenLowZero := nofun
    chkLowZero := fun _ => loByte_highPart b
    received := fun _ => h.inv.received hrx
    validFrame := fun hv => absurd (h.noFrame.symm.trans hv) (by decide)
    bufWf := h.inv.bufWf
    bufInside := h.inv.bufInside }

/-- The second checksum byte opens the read window only on a complete payload whose checksum matched (R28, R84). -/
theorem GoodBound.stepCkLo {s : State} (h : GoodBound s) (hs : s.state = .awaitCkLo) (b : Byte) :
    Inv { (stepCkLo b s).1 with frameValid := (stepCkLo b s).2 } :=
  have hrx : s.state.receiving = true := by rw [hs]; rfl
  { configWf := h.inv.configWf
    stateAllowed := rfl
    unbound := fun hb => absurd (h.bound.symm.trans hb) (by decide)
    capFits := h.inv.capFits
    lenFits := nofun
    payloadOpen := nofun
    payloadFull := nofun
    lenLowZero := nofun
    chkLowZero := nofun
    received := nofun
    validFrame := fun hv => by
      have hmatch : s.chk + zext16 b = s.sum := of_decide_eq_true hv
      have hfull : s.idx = s.len := h.inv.payloadFull (.inr hs)
      refine ⟨rfl, hmatch, (h.inv.lenFits hrx).1, fun a ha => h.inv.received hrx a ?_⟩
      rwa [hfull]
    bufWf := h.inv.bufWf
    bufInside := h.inv.bufInside }

/-- Every row of the transition table keeps the invariant, with the done bit as the new `frame_valid` (R28). -/
theorem GoodBound.processByte {s t : State} {b : Byte} {done : Bool} (h : GoodBound s)
    (hp : processByte b s = .ok (t, done)) : Inv { t with frameValid := done } := by
  rcases processByte_cases hp with
    ⟨-, rfl, rfl⟩ | ⟨-, rfl, rfl⟩ | ⟨-, rfl, rfl⟩ | ⟨hs, rfl, rfl⟩ | ⟨-, rfl, rfl⟩ | ⟨hs, hpay, rfl⟩ |
    ⟨hs, rfl, rfl⟩ | ⟨hs, rfl, rfl⟩
  · exact (h.stepH1 b).withoutFrame
  · exact (h.stepH2 b).withoutFrame
  · exact (h.stepLen b).withoutFrame
  · exact (h.stepLenHi hs b).withoutFrame
  · exact (h.stepLenLo b).withoutFrame
  · exact (h.stepPayload hs hpay).withoutFrame
  · exact (h.stepCkHi hs b).withoutFrame
  · exact h.stepCkLo hs b

/-! ## One operation and one step -/

theorem Inv.exec {s t : State} {i : Instr} (h : Inv s) (hexec : exec i s = .next t) : Inv t := by
  rcases exec_cases hexec with ⟨r, rfl⟩ | ⟨-, c, rfl⟩ | ⟨-, cap, -, hcap, rfl⟩ | ⟨⟨-, hb⟩, b, s', done, -, hp, rfl⟩
  · exact h.respond r
  · exact h.raiseFault c _
  · exact (h.bindCapacity hcap).respond _
  · exact (GoodBound.processByte ⟨h.withoutFrame, hb, rfl⟩ hp).respond _

theorem Inv.illegalWord {s t : State} {w : Word} (h : Inv s) (hw : illegalWord w s = .next t) : Inv t := by
  rcases illegalWord_next w s with ⟨f, -, hn⟩ | ⟨-, hn⟩
  · cases hn.symm.trans hw
    exact h.respond _
  · cases hn.symm.trans hw
    exact h.raiseFault _ w

theorem step_of_noWord {s : State} (hw : s.pending = []) : step s = .next s := by
  simp only [step, takeWord_nil hw]

/-- What a step does: it waits, answers an illegal word, or runs the operation of its word, with the word taken. -/
theorem step_cases (s : State) :
    (s.pending = [] ∧ step s = .next s) ∨
    ∃ w rest, s.pending = w :: rest ∧
      ((∃ e, decode w = .error e ∧ step s = illegalWord w { s with pending := rest, index := s.index + 1 }) ∨
        ∃ i, decode w = .ok i ∧ step s = exec i { s with pending := rest, index := s.index + 1 }) := by
  cases hw : s.pending with
  | nil => exact .inl ⟨rfl, step_of_noWord hw⟩
  | cons w rest =>
    refine .inr ⟨w, rest, rfl, ?_⟩
    cases hd : decode w with
    | error e => exact .inl ⟨e, rfl, step_of_illegal hw hd⟩
    | ok i => exact .inr ⟨i, rfl, step_of_legal hw hd⟩

/-! ## The statements -/

/-- Settles O7. -/
theorem stepRunsTheDecodedOperation : Obligations.StepRunsTheDecodedOperation := by
  intro s w rest i hw hd
  exact step_of_legal hw hd

/-- Settles O8. -/
theorem stepWithoutAWordChangesNothing : Obligations.StepWithoutAWordChangesNothing := by
  intro s hw
  exact step_of_noWord hw

/-- Settles O12. -/
theorem resetStateIsGood : Obligations.ResetStateIsGood := by
  intro c hc
  exact ⟨inv_powerOn hc, nofun⟩

/-- Settles O13: taking a word touches nothing the invariant reads, and each row of the transition table, an INIT and a
recorded fault keep it. -/
theorem stepKeepsTheInvariant : Obligations.StepKeepsTheInvariant := by
  intro s t h hstep
  rcases step_cases s with ⟨-, hn⟩ | ⟨w, rest, -, ⟨e, -, hn⟩ | ⟨i, -, hn⟩⟩
  · cases hn.symm.trans hstep
    exact h
  · exact (h.of_host _ _ _ _).illegalWord (hn.symm.trans hstep)
  · exact (h.of_host _ _ _ _).exec (hn.symm.trans hstep)

end Sys2Proof.Machine
end

section
/-! Which operation raises which fault, the frames of INIT, PARSE, PARSE_SHORT and ENCODE, and the statements about them
and about recorded faults (spec/10_state.md R33, spec/60_exceptions.md R107). -/

namespace Sys2Proof.Machine

/-! ## The condition of each cause (R107) -/

/-- The condition under which an operation on a state with no recorded fault raises the cause: the table of R107, but for
ILLEGAL_OPERATION, which no operation raises. Tied to the model by `raises_of_exec`. -/
inductive Raises (s : State) : Instr → Cause → Prop
  | init {cap : Half} (h : s.config.bufSize < cap.toNat) : Raises s (.init cap) .capacityExceedsBuffer
  | process {b : Byte} (h : s.bound = false) : Raises s (.process b) .notInitialised
  | parse (h : s.frameValid = false) : Raises s .parse .noValidFrame
  | parseLength (h : s.frameValid = true ∧ s.len ≠ measLen) : Raises s .parse .payloadLength
  | parseShort (h : s.frameValid = false) : Raises s .parseShort .noValidFrame

theorem raiseFault_cause_inj {c c' : Cause} {w : Word} {s : State} (h : raiseFault c w s = raiseFault c' w s) :
    c = c' := by
  simpa using congrArg State.fault h

theorem raiseFault_ne_respond {c : Cause} {w : Word} {r : Result} {s : State} (hf : s.fault = none) :
    raiseFault c w s ≠ respond r s := fun h => by
  simpa [hf] using congrArg State.fault h

/-- Only the listed operations raise a fault, each under its own condition. -/
theorem raises_of_exec {i : Instr} {s : State} {c : Cause} (hf : s.fault = none)
    (h : exec i s = .next (raiseFault c (encode i) s)) : Raises s i c := by
  cases i with
  | init cap =>
    rcases execInit_cases h with ⟨f, hf', -⟩ | ⟨-, hlt, heq⟩ | ⟨-, -, heq⟩
    · simp [hf] at hf'
    · obtain rfl := raiseFault_cause_inj heq
      exact .init hlt
    · simpa [hf] using congrArg State.fault heq
  | process b =>
    rcases execProcess_cases h with ⟨f, hf', -⟩ | ⟨-, hb, heq⟩ | ⟨-, -, s', done, hp, heq⟩
    · simp [hf] at hf'
    · obtain rfl := raiseFault_cause_inj heq
      exact .process hb
    · simpa [hf, (processByte_frame hp).fault] using congrArg State.fault heq
  | parse =>
    rcases execParse_cases h with ⟨f, hf', -⟩ | ⟨-, hv, heq⟩ | ⟨-, hv, hl, heq⟩ | ⟨-, -, -, r, -, heq⟩
    · simp [hf] at hf'
    · obtain rfl := raiseFault_cause_inj heq
      exact .parse hv
    · obtain rfl := raiseFault_cause_inj heq
      exact .parseLength ⟨hv, hl⟩
    · exact absurd heq (raiseFault_ne_respond hf)
  | parseShort =>
    rcases execParseShort_cases h with ⟨f, hf', -⟩ | ⟨-, hv, heq⟩ | ⟨-, -, -, heq⟩ | ⟨-, -, -, v, -, heq⟩
    · simp [hf] at hf'
    · obtain rfl := raiseFault_cause_inj heq
      exact .parseShort hv
    · exact absurd heq (raiseFault_ne_respond hf)
    · exact absurd heq (raiseFault_ne_respond hf)
  | encode cmd data cap =>
    rcases execEncode_cases h with ⟨f, hf', -⟩ | ⟨-, heq⟩
    · simp [hf] at hf'
    · exact absurd heq (raiseFault_ne_respond hf)

/-- An operation leaves the fault record as it is, or only raises a fault of which it meets the condition. -/
theorem exec_fault {i : Instr} {s t : State} (h : exec i s = .next t) :
    t.fault = s.fault ∨ (s.fault = none ∧ ∃ c, Raises s i c ∧ t = raiseFault c (encode i) s) := by
  rcases exec_cases h with ⟨r, rfl⟩ | ⟨hf, c, rfl⟩ | ⟨-, cap, -, -, rfl⟩ | ⟨-, b, s', done, -, hp, rfl⟩
  · exact .inl rfl
  · exact .inr ⟨hf, c, raises_of_exec hf h, rfl⟩
  · exact .inl rfl
  · exact .inl (processByte_frame hp).fault

/-- No operation changes the configuration (R9 to R11). -/
theorem exec_config {i : Instr} {s t : State} (h : exec i s = .next t) : t.config = s.config := by
  rcases exec_cases h with ⟨r, rfl⟩ | ⟨-, c, rfl⟩ | ⟨-, cap, -, -, rfl⟩ | ⟨-, b, s', done, -, hp, rfl⟩
  · rfl
  · rfl
  · rfl
  · exact (processByte_frame hp).config

/-- Every operation returns one result (R122). -/
theorem exec_results {i : Instr} {s t : State} (h : exec i s = .next t) : ∃ r, t.results = s.results ++ [r] := by
  rcases exec_cases h with ⟨r, rfl⟩ | ⟨-, c, rfl⟩ | ⟨-, cap, -, -, rfl⟩ | ⟨-, b, s', done, -, hp, rfl⟩
  · exact ⟨r, rfl⟩
  · exact ⟨_, rfl⟩
  · exact ⟨_, rfl⟩
  · exact ⟨.done done, by simp [(processByte_frame hp).results]⟩

/-! ## Plausible records (R107) -/

theorem Raises.plausible {s : State} {i : Instr} {c : Cause} {w : Word} (h : Raises s i c) (hd : decode w = .ok i) :
    FaultRecord.plausible s.config { cause := c, word := w } := by
  cases h with
  | init h => simpa only [FaultRecord.plausible, hd] using h
  | process h => simp only [FaultRecord.plausible, hd]
  | parse h => simp only [FaultRecord.plausible, hd]
  | parseLength h => simp only [FaultRecord.plausible, hd]
  | parseShort h => simp only [FaultRecord.plausible, hd]

theorem plausible_illegalOperation {c : Config} {w : Word} {e : IllegalWord} (hd : decode w = .error e) :
    FaultRecord.plausible c { cause := .illegalOperation, word := w } := by
  simp only [FaultRecord.plausible, hd]

theorem FaultsPlausible.of_eq {s t : State} (h : FaultsPlausible s) (hf : t.fault = s.fault)
    (hc : t.config = s.config) : FaultsPlausible t := by
  intro f hrec
  rw [hc]
  exact h f (hf.symm.trans hrec)

theorem FaultsPlausible.takeWord {s : State} (h : FaultsPlausible s) (rest : List Word) :
    FaultsPlausible { s with pending := rest, index := s.index + 1 } :=
  h.of_eq rfl rfl

theorem faultsPlausible_raiseFault {s : State} {c : Cause} {w : Word}
    (h : FaultRecord.plausible s.config { cause := c, word := w }) : FaultsPlausible (raiseFault c w s) := by
  intro f hrec
  obtain rfl : { cause := c, word := w } = f := by simpa using hrec
  exact h

theorem FaultsPlausible.exec {i : Instr} {s t : State} (h : FaultsPlausible s) (hexec : exec i s = .next t) :
    FaultsPlausible t := by
  rcases exec_fault hexec with hf | ⟨-, c, hraises, rfl⟩
  · exact h.of_eq hf (exec_config hexec)
  · exact faultsPlausible_raiseFault (hraises.plausible (decode_encode i))

theorem FaultsPlausible.illegalWord {s t : State} {w : Word} {e : IllegalWord} (h : FaultsPlausible s)
    (hd : decode w = .error e) (hw : illegalWord w s = .next t) : FaultsPlausible t := by
  rcases illegalWord_next w s with ⟨f, -, hn⟩ | ⟨-, hn⟩
  · cases hn.symm.trans hw
    exact h.of_eq rfl rfl
  · cases hn.symm.trans hw
    exact faultsPlausible_raiseFault (plausible_illegalOperation hd)

/-! ## The frame of PARSE, PARSE_SHORT and ENCODE (R33) -/

/-- An operation that neither restarts the decoder nor feeds it only adds a result or raises a fault. -/
theorem exec_of_not_decoder {i : Instr} {s t : State} (h : exec i s = .next t)
    (hi : i = .parse ∨ i = .parseShort ∨ ∃ cmd data cap, i = .encode cmd data cap) :
    (∃ r, t = respond r s) ∨ (s.fault = none ∧ ∃ c, Raises s i c ∧ t = raiseFault c (encode i) s) := by
  rcases exec_cases h with hr | ⟨hf, c, rfl⟩ | ⟨-, cap, rfl, -, -⟩ | ⟨-, b, -, -, rfl, -, -⟩
  · exact .inl hr
  · exact .inr ⟨hf, c, raises_of_exec hf h, rfl⟩
  · simp at hi
  · simp at hi

/-- Of these operations PARSE and PARSE_SHORT raise NO_VALID_FRAME, PARSE also PAYLOAD_LENGTH, and ENCODE nothing. -/
theorem Raises.of_not_decoder {i : Instr} {s : State} {c : Cause} (h : Raises s i c)
    (hi : i = .parse ∨ i = .parseShort ∨ ∃ cmd data cap, i = .encode cmd data cap) :
    (i = .parse ∨ i = .parseShort) ∧ (c = .noValidFrame ∨ (i = .parse ∧ c = .payloadLength)) := by
  cases h with
  | init h => simp at hi
  | process h => simp at hi
  | parse h => exact ⟨.inl rfl, .inl rfl⟩
  | parseLength h => exact ⟨.inl rfl, .inr ⟨rfl, rfl⟩⟩
  | parseShort h => exact ⟨.inr rfl, .inl rfl⟩

/-! ## The statements -/

/-- Settles O15: the recorded fault stays, or it is raised by a word that meets the cause's condition (`Raises`). -/
theorem stepKeepsRecordedFaultsPlausible : Obligations.StepKeepsRecordedFaultsPlausible := by
  intro s t h hstep
  rcases step_cases s with ⟨-, hn⟩ | ⟨w, rest, -, ⟨e, hd, hn⟩ | ⟨i, -, hn⟩⟩
  · cases hn.symm.trans hstep
    exact h
  · exact (h.takeWord rest).illegalWord hd (hn.symm.trans hstep)
  · exact (h.takeWord rest).exec (hn.symm.trans hstep)

/-- Settles O16. -/
theorem initBindsTheCapacityAndRestarts : Obligations.InitBindsTheCapacityAndRestarts := by
  intro s cap hf hcap
  exact execInit_of_fits hf hcap

/-- Settles O17: INIT answers a recorded fault, raises its own, or writes the fields of R73. -/
theorem initFrame : Obligations.InitFrame := by
  intro s t cap h
  rcases execInit_cases h with ⟨f, -, rfl⟩ | ⟨hf, -, rfl⟩ | ⟨hf, hcap, rfl⟩
  · exact ⟨rfl, rfl, rfl, fun _ => rfl, ⟨_, rfl⟩, .inl rfl, fun _ => ⟨rfl, rfl, rfl, rfl, rfl, rfl, rfl, rfl⟩⟩
  · exact ⟨rfl, rfl, rfl, fun _ => rfl, ⟨_, rfl⟩, .inr ⟨hf, rfl⟩, fun _ => ⟨rfl, rfl, rfl, rfl, rfl, rfl, rfl, rfl⟩⟩
  · refine ⟨rfl, rfl, rfl, fun _ => rfl, ⟨_, rfl⟩, .inl rfl, ?_⟩
    rintro (hfault | hlt)
    · exact absurd hf hfault
    · exact absurd hcap (Nat.not_le.2 hlt)

/-- Settles O42: these operations only add a result or raise a fault, and `Raises` says which. -/
theorem readsAndEncodeFrame : Obligations.ReadsAndEncodeFrame := by
  intro s t i h hi
  rcases exec_of_not_decoder h hi with ⟨r, rfl⟩ | ⟨hf, c, hraises, rfl⟩
  · exact ⟨rfl, rfl, rfl, rfl, rfl, rfl, rfl, rfl, rfl, rfl, rfl, fun _ => rfl, ⟨r, rfl⟩, .inl rfl⟩
  · obtain ⟨hread, hcause⟩ := hraises.of_not_decoder hi
    refine ⟨rfl, rfl, rfl, rfl, rfl, rfl, rfl, rfl, rfl, rfl, rfl, fun _ => rfl, ⟨_, rfl⟩, .inr ⟨hf, hread, ?_⟩⟩
    rcases hcause with rfl | ⟨hparse, rfl⟩
    · exact .inl rfl
    · exact .inr ⟨hparse, rfl⟩

end Sys2Proof.Machine
end

section
/-! Reads of the FrameBuffer, the record they give PARSE, and the statements about PARSE, PARSE_SHORT and the read window
(spec/20_memory.md R45, R47, spec/42_measurement_extractor.md R95 to R98). -/

namespace Sys2Proof.Machine

/-! ## Reads as bytes of the FrameBuffer (R45) -/

/-- A two-byte read answers the value whose high byte stands at the offset and whose low byte stands above it. -/
theorem memRead2_ok_iff_bytes (s : State) (a : Nat) (v : Half) :
    memRead2 s a = .ok v ↔
      a + 1 < s.config.bufSize ∧ s.buf.read a = some (hiByte v) ∧ s.buf.read (a + 1) = some (loByte v) := by
  simp only [memRead2_ok_iff, memRead1_ok_iff]
  constructor
  · rintro ⟨hi, lo, ⟨-, hhi⟩, ⟨hlt, hlo⟩, rfl⟩
    exact ⟨hlt, by rw [hiByte_bePair, hhi], by rw [loByte_bePair, hlo]⟩
  · rintro ⟨hlt, hhi, hlo⟩
    exact ⟨_, _, ⟨by omega, hhi⟩, ⟨hlt, hlo⟩, (bePair_hiByte_loByte v).symm⟩

section Agreement

variable {s s' : State} (hsize : s.config.bufSize = s'.config.bufSize) (hbuf : ∀ a, s.buf.read a = s'.buf.read a)

include hsize hbuf

theorem memRead1_congr (a : Nat) : memRead1 s a = memRead1 s' a := by
  rw [memRead1, memRead1, hsize, hbuf a]

theorem memRead2_congr (a : Nat) : memRead2 s a = memRead2 s' a := by
  simp only [memRead2, memRead1_congr hsize hbuf]

theorem readRecord_congr : readRecord s = readRecord s' := by
  simp only [readRecord, memRead1_congr hsize hbuf, memRead2_congr hsize hbuf]

end Agreement

/-! ## The record in the FrameBuffer (R95) -/

/-- The FrameBuffer holds the fields of `r` at the offsets of the layout. -/
def HoldsRecord (m : Memory) (r : MeasurementRecord) : Prop :=
  (∀ p ∈ halfLayout, m.read p.1 = some (hiByte (p.2 r)) ∧ m.read (p.1 + 1) = some (loByte (p.2 r))) ∧
  ∀ p ∈ byteLayout, m.read p.1 = some (p.2 r)

/-- The record whose bytes are `f 0` to `f 25`. -/
def recordOfBytes (f : Nat → Byte) : MeasurementRecord where
  concPM1_0_CF1 := bePair (f 0) (f 1)
  concPM2_5_CF1 := bePair (f 2) (f 3)
  concPM10_0_CF1 := bePair (f 4) (f 5)
  concPM1_0_amb := bePair (f 6) (f 7)
  concPM2_5_amb := bePair (f 8) (f 9)
  concPM10_0_amb := bePair (f 10) (f 11)
  rawBin0 := bePair (f 12) (f 13)
  rawBin1 := bePair (f 14) (f 15)
  rawBin2 := bePair (f 16) (f 17)
  rawBin3 := bePair (f 18) (f 19)
  rawBin4 := bePair (f 20) (f 21)
  rawBin5 := bePair (f 22) (f 23)
  version := f 24
  errorCode := f 25

theorem holdsRecord_recordOfBytes {m : Memory} {f : Nat → Byte} (h : ∀ a, a < 26 → m.read a = some (f a)) :
    HoldsRecord m (recordOfBytes f) := by
  simp [HoldsRecord, halfLayout, byteLayout, recordOfBytes, h]

/-- Any 26 written bytes are those of a record. -/
theorem exists_holdsRecord {m : Memory} (h : ∀ a, a < 26 → ∃ v, m.read a = some v) : ∃ r, HoldsRecord m r := by
  refine ⟨recordOfBytes fun a => (m.read a).getD 0, holdsRecord_recordOfBytes fun a ha => ?_⟩
  obtain ⟨v, hv⟩ := h a ha
  rw [hv, Option.getD_some]

theorem halfLayout_inside : ∀ p ∈ halfLayout, p.1 + 1 < 26 := by decide

theorem byteLayout_inside : ∀ p ∈ byteLayout, p.1 < 26 := by decide

/-- The fourteen reads of PARSE find the record the FrameBuffer holds. -/
theorem HoldsRecord.readRecord {s : State} {r : MeasurementRecord} (h : HoldsRecord s.buf r)
    (hsize : 26 ≤ s.config.bufSize) : readRecord s = .ok r := by
  obtain ⟨hhalf, hbyte⟩ := h
  have hread2 : ∀ p ∈ halfLayout, memRead2 s p.1 = .ok (p.2 r) := fun p hp =>
    (memRead2_ok_iff_bytes ..).2 ⟨(halfLayout_inside p hp).trans_le hsize, hhalf p hp⟩
  have hread1 : ∀ p ∈ byteLayout, memRead1 s p.1 = .ok (p.2 r) := fun p hp =>
    (memRead1_ok_iff ..).2 ⟨(byteLayout_inside p hp).trans_le hsize, hbyte p hp⟩
  simp only [halfLayout, byteLayout, List.forall_mem_cons] at hread2 hread1
  simp only [Machine.readRecord, hread2, hread1]
  rfl

/-! ## PARSE and PARSE_SHORT in the read window (R96, R97) -/

theorem execParse_of_readRecord {s : State} {r : MeasurementRecord} (hf : s.fault = none) (hv : s.frameValid = true)
    (hl : s.len = measLen) (hr : readRecord s = .ok r) : execParse s = .next (respond (.record r) s) := by
  refine (operate_noFault hf _).trans ?_
  rw [if_neg (by simp [hv]), if_neg (not_not.2 hl), hr]

theorem execParseShort_of_memRead2 {s : State} {v : Half} (hf : s.fault = none) (hv : s.frameValid = true)
    (hl : s.len = shortLen) (hr : memRead2 s 0 = .ok v) : execParseShort s = .next (respond (.value v) s) := by
  refine (operate_noFault hf _).trans ?_
  rw [if_neg (by simp [hv]), if_neg (not_not.2 hl), hr]

theorem execParse_of_windowOpen {s : State} {r : MeasurementRecord} (hw : WindowOpen s 26)
    (hr : HoldsRecord s.buf r) : execParse s = .next (respond (.record r) s) := by
  obtain ⟨hf, hv, hl, hsize, -⟩ := hw
  exact execParse_of_readRecord hf hv hl (hr.readRecord hsize)

theorem execParseShort_of_windowOpen {s : State} {v : Half} (hw : WindowOpen s 2)
    (hhi : s.buf.read 0 = some (hiByte v)) (hlo : s.buf.read 1 = some (loByte v)) :
    execParseShort s = .next (respond (.value v) s) := by
  obtain ⟨hf, hv, hl, hsize, -⟩ := hw
  exact execParseShort_of_memRead2 hf hv hl ((memRead2_ok_iff_bytes ..).2 ⟨hsize, hhi, hlo⟩)

/-- In the read window of a 2-byte payload PARSE_SHORT returns its two bytes as a pair. -/
theorem WindowOpen.exists_pair {s : State} (hw : WindowOpen s 2) :
    ∃ hi lo, s.buf.read 0 = some hi ∧ s.buf.read 1 = some lo ∧
      execParseShort s = .next (respond (.value (bePair hi lo)) s) := by
  have ⟨_, _, _, _, hwritten⟩ := hw
  obtain ⟨hi, hhi⟩ := hwritten 0 (by decide)
  obtain ⟨lo, hlo⟩ := hwritten 1 (by decide)
  exact ⟨hi, lo, hhi, hlo, execParseShort_of_windowOpen hw (by rwa [hiByte_bePair]) (by rwa [loByte_bePair])⟩

/-- In the read window of a 26-byte payload PARSE returns the record the FrameBuffer holds. -/
theorem WindowOpen.exists_record {s : State} (hw : WindowOpen s 26) :
    ∃ r, HoldsRecord s.buf r ∧ execParse s = .next (respond (.record r) s) := by
  have ⟨_, _, _, _, hwritten⟩ := hw
  obtain ⟨r, hr⟩ := exists_holdsRecord hwritten
  exact ⟨r, hr, execParse_of_windowOpen hw hr⟩

theorem execParse_total_of_windowOpen {s : State} {n : Half} (hw : WindowOpen s n) :
    ∃ t, execParse s = .next t := by
  by_cases hn : n = 26
  · subst hn
    obtain ⟨r, -, hexec⟩ := hw.exists_record
    exact ⟨_, hexec⟩
  · obtain ⟨hf, hv, rfl, -⟩ := hw
    exact ⟨_, execParse_of_otherLength hf hv hn⟩

theorem execParseShort_total_of_windowOpen {s : State} {n : Half} (hw : WindowOpen s n) :
    ∃ t, execParseShort s = .next t := by
  by_cases hn : n = 2
  · subst hn
    obtain ⟨hi, lo, -, -, hexec⟩ := hw.exists_pair
    exact ⟨_, hexec⟩
  · obtain ⟨hf, hv, rfl, -⟩ := hw
    exact ⟨_, execParseShort_of_otherLength hf hv hn⟩

/-- In the read window both reads answer a next state. -/
theorem exec_read_total {s : State} {n : Half} {i : Instr} (hw : WindowOpen s n) (hi : i = .parse ∨ i = .parseShort) :
    ∃ t, exec i s = .next t := by
  rcases hi with rfl | rfl
  · exact execParse_total_of_windowOpen hw
  · exact execParseShort_total_of_windowOpen hw

/-- Outside the read window both reads raise NO_VALID_FRAME. -/
theorem exec_read_of_noFrame {s : State} {i : Instr} (hf : s.fault = none) (hv : s.frameValid = false)
    (hi : i = .parse ∨ i = .parseShort) : exec i s = .next (raiseFault .noValidFrame (encode i) s) := by
  rcases hi with rfl | rfl
  · exact execParse_of_noFrame hf hv
  · exact execParseShort_of_noFrame hf hv

/-! ## What closes the window (R127) -/

/-- A PROCESS or an INIT that records no fault and does not complete a frame leaves `frame_valid` at 0. -/
theorem frameValid_of_not_done {j : Instr} {s u : State} (hj : (∃ b, j = .process b) ∨ ∃ cap, j = .init cap)
    (hf : s.fault = none) (h : exec j s = .next u) (hu : u.fault = none) (hres : u.results ≠ s.results ++ [.done true]) :
    u.frameValid = false := by
  rcases hj with ⟨b, rfl⟩ | ⟨cap, rfl⟩
  · rcases execProcess_cases h with ⟨f, hf', -⟩ | ⟨-, -, rfl⟩ | ⟨-, -, s', done, hp, rfl⟩
    · simp [hf] at hf'
    · simp at hu
    · cases done with
      | false => rfl
      | true => exact absurd (by simp [(processByte_frame hp).results]) hres
  · rcases execInit_cases h with ⟨f, hf', -⟩ | ⟨-, -, rfl⟩ | ⟨-, -, rfl⟩
    · simp [hf] at hf'
    · simp at hu
    · rfl

/-! ## The statements -/

/-- Settles O45: the second write leaves the first byte, and the two bytes are those of the pair. -/
theorem bytePairReadsBackBigEndian : Obligations.BytePairReadsBackBigEndian := by
  intro s a hi lo hlt
  refine ⟨{ s with buf := s.buf.write a hi }, { s with buf := (s.buf.write a hi).write (a + 1) lo },
    (memWrite1_ok_iff ..).2 ⟨by omega, rfl⟩, (memWrite1_ok_iff ..).2 ⟨hlt, rfl⟩, ?_⟩
  have hhi : ((s.buf.write a hi).write (a + 1) lo).read a = some hi := by
    rw [Memory.read_write_other _ _ (by omega), Memory.read_write_same]
  have hlo : ((s.buf.write a hi).write (a + 1) lo).read (a + 1) = some lo := Memory.read_write_same ..
  rw [hiByte_bePair, loByte_bePair]
  exact ⟨(memRead2_ok_iff_bytes ..).2 ⟨hlt, by rwa [hiByte_bePair], by rwa [loByte_bePair]⟩,
    (memRead1_ok_iff ..).2 ⟨Nat.lt_of_succ_lt hlt, hhi⟩, (memRead1_ok_iff ..).2 ⟨hlt, hlo⟩, bePair_toNat hi lo⟩

/-- Settles O40: the written payload is that of some record, which PARSE reads. -/
theorem parseReturnsTheRecordOfTheLayout : Obligations.ParseReturnsTheRecordOfTheLayout := by
  intro s hw
  obtain ⟨r, hr, hexec⟩ := hw.exists_record
  refine ⟨r, hexec, ?_⟩
  simpa [HoldsRecord, halfLayout, byteLayout, and_assoc] using hr

/-- Settles O41. -/
theorem parseShortReturnsThePairOrZero : Obligations.ParseShortReturnsThePairOrZero := by
  constructor
  · intro s hw
    exact hw.exists_pair
  · intro s hf hv hl
    exact execParseShort_of_otherLength hf hv hl

/-- Settles O43: each answer of the two reads rests on `frame_valid`, `len` and reads that agree (`readRecord_congr`). -/
theorem readsDependOnTheCompletedPayloadOnly : Obligations.ReadsDependOnTheCompletedPayloadOnly := by
  intro s s' t i hi hf hf' hsize hv hl hbuf h
  rcases hi with rfl | rfl
  · rcases execParse_cases h with ⟨f, hf'', -⟩ | ⟨-, hv', rfl⟩ | ⟨-, hv', hl', rfl⟩ | ⟨-, hv', hl', r, hr, rfl⟩
    · simp [hf] at hf''
    · exact ⟨_, _, rfl, execParse_of_noFrame hf' (hv.symm.trans hv'), rfl⟩
    · exact ⟨_, _, rfl, execParse_of_otherLength hf' (hv.symm.trans hv') (hl ▸ hl'), rfl⟩
    · have hr' : readRecord s' = .ok r := (readRecord_congr hsize hbuf).symm.trans hr
      exact ⟨_, _, rfl, execParse_of_readRecord hf' (hv.symm.trans hv') (hl.symm.trans hl') hr', rfl⟩
  · rcases execParseShort_cases h with ⟨f, hf'', -⟩ | ⟨-, hv', rfl⟩ | ⟨-, hv', hl', rfl⟩ | ⟨-, hv', hl', v, hr, rfl⟩
    · simp [hf] at hf''
    · exact ⟨_, _, rfl, execParseShort_of_noFrame hf' (hv.symm.trans hv'), rfl⟩
    · exact ⟨_, _, rfl, execParseShort_of_otherLength hf' (hv.symm.trans hv') (hl ▸ hl'), rfl⟩
    · have hr' : memRead2 s' 0 = .ok v := (memRead2_congr hsize hbuf 0).symm.trans hr
      exact ⟨_, _, rfl, execParseShort_of_memRead2 hf' (hv.symm.trans hv') (hl.symm.trans hl') hr', rfl⟩

/-- Settles O44: by the frame of the reads and of ENCODE (O42) the payload a read depends on (O43) stays; a PROCESS that
does not complete a frame and an INIT clear `frame_valid`. -/
theorem readWindowClosesOnProcessAndInitOnly : Obligations.ReadWindowClosesOnProcessAndInitOnly := by
  constructor
  · intro s u i j n hw hi hj hexec hu
    obtain ⟨t, ht⟩ := exec_read_total hw hi
    have ⟨hf, _, _, _⟩ := hw
    obtain ⟨hconfig, -, -, -, hlen, -, -, -, hvalid, -, -, hbuf, -, -⟩ := readsAndEncodeFrame s u j hexec hj
    obtain ⟨r, t', hr, ht', hr'⟩ := readsDependOnTheCompletedPayloadOnly s u t i hi hf hu (by rw [hconfig])
      hvalid.symm hlen.symm (fun a => (hbuf a).symm) ht
    exact ⟨r, t, t', ht, hr, ht', hr'⟩
  · intro s u i j hf hi hj hexec hu hres
    exact ⟨_, exec_read_of_noFrame hu (frameValid_of_not_done hj hf hexec hu hres) hi, rfl⟩

end Sys2Proof.Machine
end

section
/-! The command frame and its checksum, and the statements about them (spec/43_command_encoder.md R100, R101, R103). -/

namespace Sys2Proof.Machine

/-! ## Sums of bytes (R15) -/

@[simp] theorem byteSum_nil : byteSum [] = 0 := rfl

@[simp] theorem byteSum_cons (b : Byte) (bs : List Byte) : byteSum (b :: bs) = zext16 b + byteSum bs := rfl

/-- A sum of bytes that stays below 2^16 is the exact sum. -/
theorem byteSum_toNat {bs : List Byte} (h : (bs.map BitVec.toNat).sum < 65536) :
    (byteSum bs).toNat = (bs.map BitVec.toNat).sum := by
  induction bs with
  | nil => rfl
  | cons b bs ih =>
    rw [List.map_cons, List.sum_cons] at h ⊢
    rw [byteSum_cons, BitVec.toNat_add, zext16_toNat, ih (by omega)]
    exact Nat.mod_eq_of_lt h

/-! ## The command frame (R100, R103) -/

theorem magic1_toNat : magic1.toNat = 0x42 := rfl

theorem magic2_toNat : magic2.toNat = 0x4D := rfl

theorem commandBody_sum (cmd : Byte) (data : Half) :
    ((commandBody cmd data).map BitVec.toNat).sum =
      0x42 + 0x4D + cmd.toNat + (hiByte data).toNat + (loByte data).toNat := by
  simp only [commandBody, List.map_cons, List.map_nil, List.sum_cons, List.sum_nil, magic1_toNat, magic2_toNat]
  omega

theorem commandBody_sum_le (cmd : Byte) (data : Half) : ((commandBody cmd data).map BitVec.toNat).sum ≤ 0x038C := by
  have hcmd := cmd.isLt
  have hhi := (hiByte data).isLt
  have hlo := (loByte data).isLt
  rw [commandBody_sum]
  omega

theorem commandChecksum_toNat (cmd : Byte) (data : Half) :
    (commandChecksum cmd data).toNat = ((commandBody cmd data).map BitVec.toNat).sum :=
  byteSum_toNat (Nat.lt_of_le_of_lt (commandBody_sum_le cmd data) (by decide))

/-- The checksum as the sum R100 writes out, from the first magic byte on. -/
theorem commandChecksum_eq (cmd : Byte) (data : Half) :
    commandChecksum cmd data = 0x0042 + 0x004D + zext16 cmd + zext16 (hiByte data) + zext16 (loByte data) := by
  have h1 : zext16 magic1 = 0x0042 := by decide
  have h2 : zext16 magic2 = 0x004D := by decide
  simp only [commandChecksum, commandBody, byteSum_cons, byteSum_nil, h1, h2, BitVec.add_assoc, add_zero]

/-- A buffer of 7 bytes or more gets the five bytes of the body and the checksum, high byte first (R101). -/
theorem commandFrame_of_cap_ge {cap : Half} (cmd : Byte) (data : Half) (hcap : ¬ cap < cmdLen) :
    commandFrame cmd data cap =
      commandBody cmd data ++ [hiByte (commandChecksum cmd data), loByte (commandChecksum cmd data)] :=
  if_neg hcap

/-! ## The statements -/

/-- Settles O46: ENCODE adds the command frame, which is empty or written out according to the buffer. -/
theorem encodeBuildsTheCommandFrame : Obligations.EncodeBuildsTheCommandFrame := by
  intro s cmd data cap hf
  rw [← commandChecksum_eq]
  refine (execEncode_of_noFault cmd data cap hf).trans ?_
  split
  next hcap => rw [commandFrame_of_cap_lt cmd data (BitVec.lt_def.2 hcap)]; rfl
  next hcap => rw [commandFrame_of_cap_ge cmd data (mt BitVec.lt_def.1 hcap)]; rfl

/-- Settles O48: the five bytes add up to at most 0x42 + 0x4D + 3 * 0xFF, far below 2^16. -/
theorem commandChecksumNeverWraps : Obligations.CommandChecksumNeverWraps := by
  intro cmd data
  have hle := commandBody_sum_le cmd data
  rw [← commandChecksum_toNat] at hle
  refine ⟨(commandChecksum_toNat cmd data).trans (commandBody_sum cmd data), hle, ?_⟩
  rw [hiByte_toNat]
  omega

end Sys2Proof.Machine
end

section
/-! Operations, steps and runs in good states, and the statements about them (spec/10_state.md R36, spec/20_memory.md R42,
R48, R49, spec/60_exceptions.md R122). -/

namespace Sys2Proof.Machine

/-! ## No stop in a good state (R42, R49) -/

/-- While `frame_valid` is 1 the read window shows a payload that has been written whole (R28, R36). -/
theorem Inv.windowOpen {s : State} (h : Inv s) (hf : s.fault = none) (hv : s.frameValid = true) :
    WindowOpen s s.len := by
  obtain ⟨-, -, hlen, hwritten⟩ := h.validFrame hv
  exact ⟨hf, hv, rfl, (BitVec.le_def.1 hlen).trans h.capFits, hwritten⟩

theorem Inv.exec_read_total {s : State} {i : Instr} (h : Inv s) (hf : s.fault = none)
    (hi : i = .parse ∨ i = .parseShort) : ∃ t, Machine.exec i s = .next t := by
  cases hv : s.frameValid with
  | false => exact ⟨_, exec_read_of_noFrame hf hv hi⟩
  | true => exact Machine.exec_read_total (h.windowOpen hf hv) hi

/-- In a good state every operation answers a next state. -/
theorem Inv.exec_total {s : State} (h : Inv s) (i : Instr) : ∃ t, Machine.exec i s = .next t := by
  cases hf : s.fault with
  | some f => exact ⟨_, exec_of_fault hf i⟩
  | none =>
    cases i with
    | init cap =>
      rcases Nat.lt_or_ge s.config.bufSize cap.toNat with hlt | hle
      · exact ⟨_, execInit_of_exceeds hf hlt⟩
      · exact ⟨_, execInit_of_fits hf hle⟩
    | process b => exact execProcess_total b h
    | parse => exact h.exec_read_total hf (.inl rfl)
    | parseShort => exact h.exec_read_total hf (.inr rfl)
    | encode cmd data cap => exact ⟨_, execEncode_of_noFault cmd data cap hf⟩

theorem illegalWord_total (w : Word) (s : State) : ∃ t, illegalWord w s = .next t := by
  rcases illegalWord_next w s with ⟨f, -, hn⟩ | ⟨-, hn⟩
  · exact ⟨_, hn⟩
  · exact ⟨_, hn⟩

/-! ## One result per word (R122) -/

theorem illegalWord_results {w : Word} {s t : State} (h : illegalWord w s = .next t) :
    ∃ r, t.results = s.results ++ [r] := by
  rcases illegalWord_next w s with ⟨f, -, hn⟩ | ⟨-, hn⟩
  · cases hn.symm.trans h
    exact ⟨_, rfl⟩
  · cases hn.symm.trans h
    exact ⟨_, rfl⟩

/-- A step that takes a word adds one result. -/
theorem step_results {s t : State} {w : Word} {rest : List Word} (hw : s.pending = w :: rest) (h : step s = .next t) :
    ∃ r, t.results = s.results ++ [r] := by
  cases hd : decode w with
  | error e =>
    rw [step_of_illegal hw hd] at h
    exact (illegalWord_results h :)
  | ok i =>
    rw [step_of_legal hw hd] at h
    exact (exec_results h :)

/-! ## The FrameBuffer above the capacity (R48) -/

/-- No operation of a good state writes a byte at or above the capacity. -/
theorem Inv.exec_read_above_cap {s t : State} {i : Instr} {a : Nat} (h : Inv s) (hexec : Machine.exec i s = .next t)
    (ha : s.cap.toNat ≤ a) : t.buf.read a = s.buf.read a := by
  rcases exec_cases hexec with ⟨r, rfl⟩ | ⟨-, c, rfl⟩ | ⟨-, cap, -, -, rfl⟩ | ⟨-, b, s', done, -, hp, rfl⟩
  · rfl
  · rfl
  · rfl
  · rcases processByte_buf hp with hbuf | ⟨hs, hi, hbuf⟩
    · exact congrArg (Memory.read · a) hbuf
    · have hlen : s.len.toNat ≤ s.cap.toNat := BitVec.le_def.1 (h.lenFits ((congrArg _ hs).trans rfl)).1
      have hidx : s.idx.toNat < s.len.toNat := BitVec.lt_def.1 hi
      have hne : a ≠ s.idx.toNat := by omega
      exact (congrArg (Memory.read · a) hbuf).trans (s.buf.read_write_other b hne)

/-! ## The statements -/

/-- Settles O14. -/
theorem stepNeverStopsInAGoodState : Obligations.StepNeverStopsInAGoodState := by
  intro s h
  rcases step_cases s with ⟨-, hn⟩ | ⟨w, rest, -, ⟨e, -, hn⟩ | ⟨i, -, hn⟩⟩
  · exact ⟨s, hn⟩
  · rw [hn]
    exact illegalWord_total w _
  · rw [hn]
    exact (h.of_host _ _ _ _).exec_total i

/-- From a good state as many steps as there are words pending complete and add one result each. -/
theorem Inv.runSteps_results {s : State} (h : Inv s) {ws : List Word} (hw : s.pending = ws) :
    ∃ t, runSteps ws.length s = .next t ∧ t.results.length = s.results.length + ws.length := by
  induction ws generalizing s with
  | nil => exact ⟨s, rfl, rfl⟩
  | cons w ws ih =>
    obtain ⟨s', hstep⟩ := stepNeverStopsInAGoodState s h
    obtain ⟨hpending, -⟩ := everyOperationAdvancesTheIndexByOne s s' w ws hw hstep
    obtain ⟨r, hr⟩ := step_results hw hstep
    obtain ⟨t, hrun, hlen⟩ := ih (stepKeepsTheInvariant s s' h hstep) hpending
    refine ⟨t, ?_, ?_⟩
    · rw [List.length_cons, runSteps, hstep, andThen_next, hrun]
    · rw [hlen, hr, List.length_append, List.length_singleton, List.length_cons]
      omega

/-- Settles O10: reset is a good state, and `Inv.runSteps_results`. -/
theorem runObservesOneResultPerWord : Obligations.RunObservesOneResultPerWord := by
  intro c ws hc
  have hinv : Inv { State.powerOn c with pending := ws } := (inv_powerOn hc).of_host _ _ _ _
  obtain ⟨t, hrun, hlen⟩ := hinv.runSteps_results rfl
  refine ⟨t.results, ?_, hlen.trans (Nat.zero_add _)⟩
  rw [observation, runWords, hrun]

/-- Settles O33. -/
theorem bytesAboveTheCapacityAreNeverWritten : Obligations.BytesAboveTheCapacityAreNeverWritten := by
  intro s t i a h hexec ha
  exact h.exec_read_above_cap hexec ha

end Sys2Proof.Machine
end

section
/-! The rows of PROCESS that test a length, what a PROCESS leaves unchanged, the done bit, and the statements about them
(spec/41_frame_decoder.md R79, R81, R88, spec/10_state.md R28, R33). -/

namespace Sys2Proof.Machine

/-! ## The length byte under LEN1 (R79) -/

theorem processByte_of_awaitLen {s : State} (b : Byte) (hs : s.state = .awaitLen) :
    processByte b s = .ok (stepLen b s, false) := by
  simp only [processByte, hs]

theorem processByte_len_of_accepts {s : State} {b : Byte} (hs : s.state = .awaitLen)
    (hacc : len1Accepts s.cap b = true) :
    processByte b s =
      .ok ({ addToSum b s with len := zext16 b - ckAllow, idx := 0, state := .rxPayload }, false) := by
  rw [processByte_of_awaitLen b hs, stepLen_of_accepts hacc]

theorem processByte_len_of_rejects {s : State} {b : Byte} (hs : s.state = .awaitLen)
    (hacc : ¬ len1Accepts s.cap b = true) :
    processByte b s = .ok ({ addToSum b s with state := .awaitH1 }, false) := by
  rw [processByte_of_awaitLen b hs, stepLen_of_rejects hacc]

theorem execProcess_len_of_accepts {s : State} {b : Byte} (hr : Ready s) (hs : s.state = .awaitLen)
    (hacc : len1Accepts s.cap b = true) :
    execProcess b s = .next (respond (.done false) { addToSum b s with
      len := zext16 b - ckAllow, idx := 0, state := .rxPayload, frameValid := false }) :=
  execProcess_of_ready hr (processByte_len_of_accepts (s := { s with frameValid := false }) hs hacc)

theorem execProcess_len_of_rejects {s : State} {b : Byte} (hr : Ready s) (hs : s.state = .awaitLen)
    (hacc : ¬ len1Accepts s.cap b = true) :
    execProcess b s = .next (respond (.done false) { addToSum b s with state := .awaitH1, frameValid := false }) :=
  execProcess_of_ready hr (processByte_len_of_rejects (s := { s with frameValid := false }) hs hacc)

/-! ## The low length byte under LEN2, where the high one has been read (R81) -/

theorem processByte_of_awaitLenLo {s : State} (b : Byte) (hs : s.state = .awaitLenLo) :
    processByte b s = .ok (stepLenLo b s, false) := by
  simp only [processByte, hs]

theorem processByte_lenLo_of_accepts {s : State} {hi b : Byte} (hs : s.state = .awaitLenLo)
    (hlen : s.len = bePair hi 0x00) (hacc : len2Accepts s.cap (bePair hi b) = true) :
    processByte b s =
      .ok ({ addToSum b s with len := bePair hi b - ckAllow, idx := 0, state := .rxPayload }, false) := by
  rw [← bePair_zero_add_zext16, ← hlen] at hacc ⊢
  rw [processByte_of_awaitLenLo b hs, stepLenLo_of_accepts hacc]

theorem processByte_lenLo_of_rejects {s : State} {hi b : Byte} (hs : s.state = .awaitLenLo)
    (hlen : s.len = bePair hi 0x00) (hacc : ¬ len2Accepts s.cap (bePair hi b) = true) :
    processByte b s = .ok ({ addToSum b s with len := bePair hi b - ckAllow, state := .awaitH1 }, false) := by
  rw [← bePair_zero_add_zext16, ← hlen] at hacc ⊢
  rw [processByte_of_awaitLenLo b hs, stepLenLo_of_rejects hacc]

theorem execProcess_lenLo_of_accepts {s : State} {hi b : Byte} (hr : Ready s) (hs : s.state = .awaitLenLo)
    (hlen : s.len = bePair hi 0x00) (hacc : len2Accepts s.cap (bePair hi b) = true) :
    execProcess b s = .next (respond (.done false) { addToSum b s with
      len := bePair hi b - ckAllow, idx := 0, state := .rxPayload, frameValid := false }) :=
  execProcess_of_ready hr (processByte_lenLo_of_accepts (s := { s with frameValid := false }) hs hlen hacc)

theorem execProcess_lenLo_of_rejects {s : State} {hi b : Byte} (hr : Ready s) (hs : s.state = .awaitLenLo)
    (hlen : s.len = bePair hi 0x00) (hacc : ¬ len2Accepts s.cap (bePair hi b) = true) :
    execProcess b s = .next (respond (.done false) { addToSum b s with
      len := bePair hi b - ckAllow, state := .awaitH1, frameValid := false }) :=
  execProcess_of_ready hr (processByte_lenLo_of_rejects (s := { s with frameValid := false }) hs hlen hacc)

/-! ## The registers a row leaves unchanged (R33) -/

theorem stepH2_registers (b : Byte) (s : State) :
    (stepH2 b s).chk = s.chk ∧ (stepH2 b s).len = s.len ∧ (stepH2 b s).idx = s.idx := by
  unfold stepH2
  split <;> split <;> exact ⟨rfl, rfl, rfl⟩

theorem stepLen_chk (b : Byte) (s : State) : (stepLen b s).chk = s.chk := by
  unfold stepLen
  split <;> rfl

theorem stepLenLo_chk (b : Byte) (s : State) : (stepLenLo b s).chk = s.chk := by
  unfold stepLenLo
  dsimp only
  split <;> rfl

theorem stepPayload_registers {b : Byte} {s t : State} (h : stepPayload b s = .ok t) :
    t.chk = s.chk ∧ t.len = s.len := by
  by_cases hi : s.idx < s.len
  · obtain ⟨-, rfl⟩ := stepPayload_store h hi
    exact ⟨rfl, rfl⟩
  · obtain rfl := stepPayload_noStore h hi
    exact ⟨rfl, rfl⟩

/-- Which parse positions may change which register, each register against the positions R75 to R84 name. -/
structure RegisterFrame (p : ParseState) (s t : State) : Prop where
  chk : p ≠ .awaitCkHi → p ≠ .awaitCkLo → t.chk = s.chk
  len : p ≠ .awaitLen → p ≠ .awaitLenHi → p ≠ .awaitLenLo → t.len = s.len
  idx : p ≠ .awaitLen → p ≠ .awaitLenLo → p ≠ .rxPayload → t.idx = s.idx
  sum : p = .awaitCkHi ∨ p = .awaitCkLo → t.sum = s.sum

theorem processByte_registers {b : Byte} {s t : State} {done : Bool} (h : processByte b s = .ok (t, done)) :
    RegisterFrame s.state s t := by
  rcases processByte_cases h with
    ⟨hs, rfl, -⟩ | ⟨hs, rfl, -⟩ | ⟨hs, rfl, -⟩ | ⟨hs, rfl, -⟩ | ⟨hs, rfl, -⟩ | ⟨hs, hp, -⟩ | ⟨hs, rfl, -⟩ | ⟨hs, rfl, -⟩
    <;> rw [hs]
  · exact ⟨fun _ _ => rfl, fun _ _ _ => rfl, fun _ _ _ => rfl, by simp⟩
  · obtain ⟨hchk, hlen, hidx⟩ := stepH2_registers b s
    exact ⟨fun _ _ => hchk, fun _ _ _ => hlen, fun _ _ _ => hidx, by simp⟩
  · exact ⟨fun _ _ => stepLen_chk b s, by simp, by simp, by simp⟩
  · exact ⟨fun _ _ => rfl, by simp, fun _ _ _ => rfl, by simp⟩
  · exact ⟨fun _ _ => stepLenLo_chk b s, by simp, by simp, by simp⟩
  · obtain ⟨hchk, hlen⟩ := stepPayload_registers hp
    exact ⟨fun _ _ => hchk, fun _ _ _ => hlen, by simp, by simp⟩
  · exact ⟨by simp, fun _ _ _ => rfl, fun _ _ _ => rfl, fun _ => rfl⟩
  · exact ⟨by simp, fun _ _ _ => rfl, fun _ _ _ => rfl, fun _ => rfl⟩

/-! ## The done bit (R28) -/

/-- A PROCESS that consumes its byte returns what it leaves in `frame_valid`. -/
theorem execProcess_frameValid {s t : State} {b : Byte} (hr : Ready s) (h : execProcess b s = .next t) :
    t.results = s.results ++ [.done t.frameValid] := by
  obtain ⟨hf, hb⟩ := hr
  rcases execProcess_cases h with ⟨f, hf', -⟩ | ⟨-, hb', -⟩ | ⟨-, -, s', done, hp, rfl⟩
  · simp [hf] at hf'
  · simp [hb] at hb'
  · simp [(processByte_frame hp).results]

/-! ## The statements -/

/-- Settles O22: the two clauses are the two answers of `len1Accepts`. -/
theorem processInAwaitLen : Obligations.ProcessInAwaitLen := by
  intro s b hr hs
  by_cases hacc : len1Accepts s.cap b = true
  · obtain ⟨hge, hle⟩ := len1Accepts_iff.1 hacc
    refine ⟨_, execProcess_len_of_accepts hr hs hacc, rfl, rfl, rfl, rfl, rfl, rfl, rfl, fun _ => rfl,
      fun _ => ⟨rfl, zext16_sub_ckAllow_toNat hge, rfl⟩, ?_⟩
    rintro (hlt | hgt) <;> omega
  · refine ⟨_, execProcess_len_of_rejects hr hs hacc, rfl, rfl, rfl, rfl, rfl, rfl, rfl, fun _ => rfl,
      fun h => absurd (len1Accepts_iff.2 h) hacc, fun _ => ⟨rfl, rfl⟩⟩

/-- Settles O24: the two clauses are the two answers of `len2Accepts`. -/
theorem processInAwaitLenLo : Obligations.ProcessInAwaitLenLo := by
  intro s hi b hr hs hlen
  by_cases hacc : len2Accepts s.cap (bePair hi b) = true
  · obtain ⟨hge, hle⟩ := len2Accepts_iff.1 hacc
    refine ⟨_, execProcess_lenLo_of_accepts hr hs hlen hacc, rfl, rfl, rfl, rfl, rfl, rfl, rfl, fun _ => rfl,
      fun _ => ⟨rfl, sub_ckAllow_toNat hge, rfl⟩, ?_⟩
    rintro (hlt | hgt) <;> omega
  · refine ⟨_, execProcess_lenLo_of_rejects hr hs hlen hacc, rfl, rfl, rfl, rfl, rfl, rfl, rfl, fun _ => rfl,
      fun h => absurd (len2Accepts_iff.2 h) hacc, fun _ => ⟨rfl, rfl⟩⟩

/-- Settles O28: a PROCESS answers a recorded fault, raises its own, or runs a row, whose frame is `ByteFrame` and
`RegisterFrame`; the FrameBuffer by `execProcess_buf`. -/
theorem processFrame : Obligations.ProcessFrame := by
  intro s t b h
  have hmem : ∀ a, ¬ (Ready s ∧ s.state = .rxPayload ∧ s.idx < s.len ∧ a = s.idx.toNat) →
      t.buf.read a = s.buf.read a := by
    intro a ha
    rcases execProcess_buf h with hbuf | ⟨hr, hs, hi, hbuf⟩
    · rw [hbuf]
    · rw [hbuf, Memory.read_write_other _ b fun he => ha ⟨hr, hs, hi, he⟩]
  rcases execProcess_cases h with ⟨f, -, rfl⟩ | ⟨hf, hb, rfl⟩ | ⟨hf, hb, s', done, hp, rfl⟩
  · exact ⟨rfl, rfl, rfl, rfl, rfl, ⟨_, rfl⟩, .inl rfl, fun _ _ => rfl, fun _ _ _ => rfl, fun _ _ _ => rfl,
      fun _ => rfl, fun _ => ⟨rfl, rfl, rfl, rfl, rfl, rfl⟩, hmem⟩
  · exact ⟨rfl, rfl, rfl, rfl, rfl, ⟨_, rfl⟩, .inr ⟨hf, hb, rfl⟩, fun _ _ => rfl, fun _ _ _ => rfl, fun _ _ _ => rfl,
      fun _ => rfl, fun _ => ⟨rfl, rfl, rfl, rfl, rfl, rfl⟩, hmem⟩
  · have hframe := processByte_frame hp
    have hregs := processByte_registers hp
    exact ⟨hframe.config, hframe.cap, hframe.bound, hframe.pending, hframe.index, exec_results h, .inl hframe.fault,
      hregs.chk, hregs.len, hregs.idx, hregs.sum, fun hr => absurd ⟨hf, hb⟩ hr, hmem⟩

/-- Settles O32: by `execProcess_frameValid`, the equations of INIT and of reset, and the frame of the reads (O42). -/
theorem frameValidIsTheLastDoneBit : Obligations.FrameValidIsTheLastDoneBit := by
  refine ⟨?_, ?_, State.powerOn_frameValid, ?_, ?_⟩
  · intro s t b hr h
    exact execProcess_frameValid hr h
  · intro s cap hf hcap
    exact ⟨_, execInit_of_fits hf hcap, rfl⟩
  · intro s t i h hi
    rcases exec_of_not_decoder h hi with ⟨r, rfl⟩ | ⟨-, c, -, rfl⟩
    · rfl
    · rfl
  · intro s i hf hv hi
    exact exec_read_of_noFrame hf hv hi

end Sys2Proof.Machine
end

section
/-! What an operation does is independent of the host's words, of the index and of earlier results, and the statements
that rest on it: ENCODE before another operation, channels, and the words of a FEED line (spec/43_command_encoder.md R105,
spec/60_exceptions.md R118, R122, spec/30_encoding.md R70). -/

namespace Sys2Proof.Machine

/-! ## The host's side of a state -/

/-- The state with another list of words, another index, and its results changed by `f`; the block is as it was. -/
def rehost (p : List Word) (n : Nat) (f : List Result → List Result) (s : State) : State :=
  { s with pending := p, index := n, results := f s.results }

/-- The next state of an outcome changed by `g`; a stop stays a stop. -/
def mapNext (g : State → State) : Outcome → Outcome
  | .next s => .next (g s)
  | .fault r => .fault r
  | .refused r => .refused r

/-! ### Where PROCESS, PARSE and PARSE_SHORT stop -/

theorem execProcess_of_error {s : State} {b : Byte} {e : Fault} (hr : Ready s)
    (hp : processByte b { s with frameValid := false } = .error e) : execProcess b s = .fault e := by
  obtain ⟨hf, hb⟩ := hr
  unfold execProcess
  rw [operate_noFault hf, if_neg (by simp [hb]), hp]

theorem execParse_of_error {s : State} {e : Fault} (hf : s.fault = none) (hv : s.frameValid = true)
    (hl : s.len = measLen) (hr : readRecord s = .error e) : execParse s = .fault e := by
  refine (operate_noFault hf _).trans ?_
  rw [if_neg (by simp [hv]), if_neg (not_not.2 hl), hr]

theorem execParseShort_of_error {s : State} {e : Fault} (hf : s.fault = none) (hv : s.frameValid = true)
    (hl : s.len = shortLen) (hr : memRead2 s 0 = .error e) : execParseShort s = .fault e := by
  refine (operate_noFault hf _).trans ?_
  rw [if_neg (by simp [hv]), if_neg (not_not.2 hl), hr]

/-! ### The rows of the transition table -/

section Rehost

variable (p : List Word) (n : Nat) (f : List Result → List Result)

theorem stepH2_rehost (b : Byte) (s : State) : stepH2 b (rehost p n f s) = rehost p n f (stepH2 b s) := by
  unfold stepH2
  split
  · rw [show (rehost p n f s).config.lenMode = s.config.lenMode from rfl]
    cases s.config.lenMode <;> rfl
  · rw [show (rehost p n f s).config.hdrResync = s.config.hdrResync from rfl]
    cases s.config.hdrResync <;> rfl

theorem stepLen_rehost (b : Byte) (s : State) : stepLen b (rehost p n f s) = rehost p n f (stepLen b s) := by
  by_cases hacc : len1Accepts s.cap b = true
  · rw [stepLen_of_accepts hacc, stepLen_of_accepts (s := rehost p n f s) hacc]
    rfl
  · rw [stepLen_of_rejects hacc, stepLen_of_rejects (s := rehost p n f s) hacc]
    rfl

theorem stepLenLo_rehost (b : Byte) (s : State) : stepLenLo b (rehost p n f s) = rehost p n f (stepLenLo b s) := by
  by_cases hacc : len2Accepts s.cap (s.len + zext16 b) = true
  · rw [stepLenLo_of_accepts hacc, stepLenLo_of_accepts (s := rehost p n f s) hacc]
    rfl
  · rw [stepLenLo_of_rejects hacc, stepLenLo_of_rejects (s := rehost p n f s) hacc]
    rfl

theorem memWrite1_rehost (a : Nat) (v : Byte) (s : State) :
    memWrite1 a v (rehost p n f s) = (memWrite1 a v s).map (rehost p n f) := by
  unfold memWrite1
  rw [show (rehost p n f s).config = s.config from rfl]
  split <;> rfl

theorem stepPayload_rehost (b : Byte) (s : State) :
    stepPayload b (rehost p n f s) = (stepPayload b s).map (rehost p n f) := by
  by_cases hi : s.idx < s.len
  · have hmem := memWrite1_rehost p n f s.idx.toNat b (addToSum b s)
    have hrow : stepPayload b (rehost p n f s) =
        match memWrite1 s.idx.toNat b (rehost p n f (addToSum b s)) with
        | .error e => .error e
        | .ok s' => .ok (closePayload { s' with idx := s.idx + 1 }) := if_pos hi
    rw [hrow, hmem, stepPayload, if_pos hi]
    cases memWrite1 s.idx.toNat b (addToSum b s) <;> rfl
  · rw [stepPayload, stepPayload, if_neg hi, if_neg (show ¬ (rehost p n f s).idx < (rehost p n f s).len from hi)]
    rfl

theorem processByte_rehost (b : Byte) (s : State) :
    processByte b (rehost p n f s) = (processByte b s).map fun q => (rehost p n f q.1, q.2) := by
  unfold processByte
  rw [show (rehost p n f s).state = s.state from rfl]
  split
  · rfl
  · rw [stepH2_rehost]; rfl
  · rw [stepLen_rehost]; rfl
  · rfl
  · rw [stepLenLo_rehost]; rfl
  · rw [stepPayload_rehost]
    cases stepPayload b s <;> rfl
  · rfl
  · rfl

end Rehost

/-! ### The operations -/

section Operations

variable {p : List Word} {n : Nat} {f : List Result → List Result} {s : State}
  (hf : ∀ r, f (s.results ++ [r]) = f s.results ++ [r])

include hf

theorem respond_rehost {t : State} (ht : t.results = s.results) (r : Result) :
    respond r (rehost p n f t) = rehost p n f (respond r t) := by
  simp only [respond, rehost, ht, hf r]

theorem raiseFault_rehost (c : Cause) (w : Word) :
    raiseFault c w (rehost p n f s) = rehost p n f (raiseFault c w s) :=
  respond_rehost hf (t := { s with fault := some { cause := c, word := w } }) rfl _

theorem execInit_rehost (hfault : s.fault = none) (cap : Half) :
    execInit cap (rehost p n f s) = mapNext (rehost p n f) (execInit cap s) := by
  rcases Nat.lt_or_ge s.config.bufSize cap.toNat with hlt | hle
  · rw [execInit_of_exceeds hfault hlt, execInit_of_exceeds (s := rehost p n f s) hfault hlt, raiseFault_rehost hf]
    rfl
  · rw [execInit_of_fits hfault hle, execInit_of_fits (s := rehost p n f s) hfault hle]
    exact congrArg Host.Outcome.next (respond_rehost hf (t := bindCapacity cap s) rfl .unit)

theorem execProcess_rehost (hfault : s.fault = none) (b : Byte) :
    execProcess b (rehost p n f s) = mapNext (rehost p n f) (execProcess b s) := by
  cases hb : s.bound with
  | false =>
    rw [execProcess_of_unbound b hfault hb, execProcess_of_unbound (s := rehost p n f s) b hfault hb,
      raiseFault_rehost hf]
    rfl
  | true =>
    have hr : Ready s := ⟨hfault, hb⟩
    have hr' : Ready (rehost p n f s) := ⟨hfault, hb⟩
    have hrow := processByte_rehost p n f b { s with frameValid := false }
    cases hp : processByte b { s with frameValid := false } with
    | error e =>
      rw [hp] at hrow
      rw [execProcess_of_error hr hp, execProcess_of_error hr' hrow]
      rfl
    | ok q =>
      obtain ⟨t, done⟩ := q
      rw [hp] at hrow
      rw [execProcess_of_ready hr hp, execProcess_of_ready hr' hrow]
      have hres : t.results = s.results := (processByte_frame hp).results
      exact congrArg Host.Outcome.next (respond_rehost hf (t := { t with frameValid := done }) hres _)

theorem execParse_rehost (hfault : s.fault = none) :
    execParse (rehost p n f s) = mapNext (rehost p n f) (execParse s) := by
  have hread : readRecord (rehost p n f s) = readRecord s := readRecord_congr rfl fun _ => rfl
  cases hv : s.frameValid with
  | false =>
    rw [execParse_of_noFrame hfault hv, execParse_of_noFrame (s := rehost p n f s) hfault hv, raiseFault_rehost hf]
    rfl
  | true =>
    by_cases hl : s.len = measLen
    · cases hr : readRecord s with
      | error e =>
        rw [execParse_of_error hfault hv hl hr,
          execParse_of_error (s := rehost p n f s) hfault hv hl (hread.trans hr)]
        rfl
      | ok r =>
        rw [execParse_of_readRecord hfault hv hl hr,
          execParse_of_readRecord (s := rehost p n f s) hfault hv hl (hread.trans hr), respond_rehost hf rfl]
        rfl
    · rw [execParse_of_otherLength hfault hv hl, execParse_of_otherLength (s := rehost p n f s) hfault hv hl,
        raiseFault_rehost hf]
      rfl

theorem execParseShort_rehost (hfault : s.fault = none) :
    execParseShort (rehost p n f s) = mapNext (rehost p n f) (execParseShort s) := by
  have hread : memRead2 (rehost p n f s) 0 = memRead2 s 0 := memRead2_congr rfl (fun _ => rfl) 0
  cases hv : s.frameValid with
  | false =>
    rw [execParseShort_of_noFrame hfault hv, execParseShort_of_noFrame (s := rehost p n f s) hfault hv,
      raiseFault_rehost hf]
    rfl
  | true =>
    by_cases hl : s.len = shortLen
    · cases hr : memRead2 s 0 with
      | error e =>
        rw [execParseShort_of_error hfault hv hl hr,
          execParseShort_of_error (s := rehost p n f s) hfault hv hl (hread.trans hr)]
        rfl
      | ok v =>
        rw [execParseShort_of_memRead2 hfault hv hl hr,
          execParseShort_of_memRead2 (s := rehost p n f s) hfault hv hl (hread.trans hr), respond_rehost hf rfl]
        rfl
    · rw [execParseShort_of_otherLength hfault hv hl,
        execParseShort_of_otherLength (s := rehost p n f s) hfault hv hl, respond_rehost hf rfl]
      rfl

theorem execEncode_rehost (hfault : s.fault = none) (cmd : Byte) (data cap : Half) :
    execEncode cmd data cap (rehost p n f s) = mapNext (rehost p n f) (execEncode cmd data cap s) := by
  rw [execEncode_of_noFault _ _ _ hfault, execEncode_of_noFault (s := rehost p n f s) _ _ _ hfault,
    respond_rehost hf rfl]
  rfl

/-- An operation does the same whatever the host's side, if `f` lets through the result it adds. -/
theorem exec_rehost (i : Instr) : exec i (rehost p n f s) = mapNext (rehost p n f) (exec i s) := by
  cases hfault : s.fault with
  | some e =>
    rw [exec_of_fault hfault, exec_of_fault (s := rehost p n f s) hfault, respond_rehost hf rfl]
    rfl
  | none =>
    cases i with
    | init cap => exact execInit_rehost hf hfault cap
    | process b => exact execProcess_rehost hf hfault b
    | parse => exact execParse_rehost hf hfault
    | parseShort => exact execParseShort_rehost hf hfault
    | encode cmd data cap => exact execEncode_rehost hf hfault cmd data cap

end Operations

theorem exec_withStream (p : List Word) (n : Nat) (s : State) (i : Instr) :
    exec i { s with pending := p, index := n } = mapNext (rehost p n id) (exec i s) :=
  exec_rehost (f := id) (fun _ => rfl) i

/-- With other results before it, an operation adds the same result to them and does the same otherwise. -/
theorem exec_withResults {s t : State} {i : Instr} {r : Result} (h : exec i s = .next t)
    (hr : t.results = s.results ++ [r]) (rs : List Result) :
    exec i { s with results := rs } = .next { t with results := rs ++ [r] } := by
  obtain ⟨hpending, hindex⟩ := exec_stream h
  have hexec := exec_rehost (p := s.pending) (n := s.index) (f := fun l => rs ++ l.drop s.results.length) (s := s)
    (fun r => by simp) i
  rw [h, mapNext] at hexec
  simpa [rehost, hr, hpending, hindex] using hexec

/-! ## Channels (R118) -/

theorem stepChannel_of_unserved {k : Nat} {cs : List State} (hk : cs[k]? = none) : stepChannel k cs = .next cs := by
  simp only [stepChannel, hk]

theorem stepChannel_of_step {k : Nat} {cs : List State} {s t : State} (hk : cs[k]? = some s) (h : step s = .next t) :
    stepChannel k cs = .next (cs.set k t) := by
  simp only [stepChannel, hk, h]

/-- A step of a channel changes nothing where no state serves it, or else moves the channel's own state one step on. -/
theorem stepChannel_cases {k : Nat} {cs cs' : List State} (h : stepChannel k cs = .next cs') :
    (cs[k]? = none ∧ cs' = cs) ∨ ∃ s t, cs[k]? = some s ∧ step s = .next t ∧ cs' = cs.set k t := by
  unfold stepChannel at h
  split at h
  next hk =>
    cases h
    exact .inl ⟨hk, rfl⟩
  next s hk =>
    split at h
    next t ht =>
      cases h
      exact .inr ⟨s, t, hk, ht, rfl⟩
    next => cases h
    next => cases h

/-! ## FEED (R70) -/

/-- The PROCESS words of a list of bytes, as a FEED line of the bytes gives them (`assemble_feed`). -/
def processWords (bytes : List Byte) : List Word := bytes.map fun b => encode (.process b)

/-- Literals that are bytes assemble to the PROCESS words of the bytes. -/
theorem assemble_feed {bytes : List Byte} {ws : List Word} (h : assemble (.feed (bytes.map BitVec.toNat)) = some ws) :
    ws = processWords bytes := by
  have hwords : (expandLine (.feed (bytes.map BitVec.toNat))).map encode = processWords bytes := by
    simp [expandLine, processWords, Function.comp_def]
  cases hwf : (AsmLine.feed (bytes.map BitVec.toNat)).wf with
  | false => simp [assemble_of_not_wf hwf] at h
  | true =>
    rw [assemble_of_wf hwf, hwords] at h
    exact (Option.some.inj h).symm

/-- The step of a PROCESS word, as PROCESS in the state before the word was issued. -/
theorem step_process (b : Byte) (rest : List Word) (s : State) :
    step { s with pending := encode (.process b) :: rest } =
      mapNext (rehost rest (s.index + 1) id) (exec (.process b) s) :=
  (step_of_legal rfl (decode_encode (.process b))).trans (exec_withStream rest (s.index + 1) s _)

/-- Running PROCESS words, with any words after them, is feeding their bytes. -/
theorem runSteps_processWords (bytes : List Byte) (rest : List Word) (s : State) :
    runSteps bytes.length { s with pending := processWords bytes ++ rest } =
      feed bytes { s with pending := rest, index := s.index + bytes.length } := by
  induction bytes generalizing s with
  | nil => rfl
  | cons b bs ih =>
    calc runSteps (bs.length + 1) { s with pending := encode (.process b) :: (processWords bs ++ rest) }
        = andThen (mapNext (rehost (processWords bs ++ rest) (s.index + 1) id) (exec (.process b) s))
            (runSteps bs.length) := by
          rw [runSteps, step_process]
      _ = andThen (mapNext (rehost rest (s.index + (bs.length + 1)) id) (exec (.process b) s)) (feed bs) := by
          cases exec (.process b) s with
          | next t =>
            have hrest := ih { t with index := s.index + 1 }
            rw [Nat.add_assoc, Nat.add_comm 1] at hrest
            exact hrest
          | fault r => rfl
          | refused r => rfl
      _ = feed (b :: bs) { s with pending := rest, index := s.index + (bs.length + 1) } := by
          rw [feed, exec_withStream rest (s.index + (bs.length + 1)) s]

/-! ## The statements -/

/-- Settles O49: the state after the ENCODE differs from the one before it in the results only. -/
theorem encodeIsIndependentOfTheDecoder : Obligations.EncodeIsIndependentOfTheDecoder := by
  intro s u t i cmd data cap hf hu ht
  obtain rfl : respond (.bytes (commandFrame cmd data cap)) s = u :=
    Host.Outcome.next.inj ((execEncode_of_noFault cmd data cap hf).symm.trans hu)
  obtain ⟨r, hr⟩ := exec_results ht
  exact ⟨r, hr, exec_withResults ht hr _⟩

/-- Settles O54: where a state serves the channel, a step replaces that state by its own next state. -/
theorem channelsAreIsolated : Obligations.ChannelsAreIsolated := by
  intro cs ds cs' k h
  rcases stepChannel_cases h with ⟨hk, rfl⟩ | ⟨s, t, hk, hstep, rfl⟩
  · refine ⟨rfl, fun j _ => rfl, fun s hs => by simp [hk] at hs, fun hd => ⟨ds, ?_, hd⟩⟩
    rw [stepChannel_of_unserved (hd.trans hk)]
  · have hget : ∀ es : List State, es[k]? = some s → (es.set k t)[k]? = some t := fun es hes => by
      obtain ⟨hlt, -⟩ := List.getElem?_eq_some_iff.1 hes
      exact List.getElem?_set_self hlt
    refine ⟨List.length_set, fun j hj => List.getElem?_set_ne hj.symm, fun s' hs' => ?_, fun hd => ?_⟩
    · obtain rfl : s = s' := Option.some.inj (hk.symm.trans hs')
      exact ⟨t, hstep, hget cs hk⟩
    · have hds := hd.trans hk
      exact ⟨ds.set k t, stepChannel_of_step hds hstep, (hget ds hds).trans (hget cs hk).symm⟩

/-- Settles O56. -/
theorem feedLineIsOneProcessPerByte : Obligations.FeedLineIsOneProcessPerByte := by
  intro bytes s rest ws h
  obtain rfl := assemble_feed h
  refine ⟨rfl, ?_⟩
  rw [processWords, List.length_map]
  exact runSteps_processWords bytes rest s

end Sys2Proof.Machine
end

section
/-! Frames on the line, part by part: a stream of bytes that all return 0, the header, the length field, the payload and
the checksum, and the statements about whole frames and about noise (spec/41_frame_decoder.md R85 to R91,
spec/42_measurement_extractor.md R99). -/

namespace Sys2Proof.Machine

/-! ## Streams of bytes -/

theorem feed_append (xs ys : List Byte) (s : State) : feed (xs ++ ys) s = andThen (feed xs s) (feed ys) := by
  induction xs generalizing s with
  | nil => rfl
  | cons x xs ih =>
    rw [List.cons_append, feed, feed]
    cases exec (.process x) s with
    | next t => exact ih t
    | fault r => rfl
    | refused r => rfl

theorem feed_singleton (b : Byte) (s : State) : feed [b] s = execProcess b s := by
  rw [feed, exec_process]
  cases execProcess b s <;> rfl

theorem byteSum_append (xs ys : List Byte) : byteSum (xs ++ ys) = byteSum xs + byteSum ys := by
  induction xs with
  | nil => simp
  | cons x xs ih => rw [List.cons_append, byteSum_cons, byteSum_cons, ih, add_assoc]

theorem byteSum_singleton (b : Byte) : byteSum [b] = zext16 b := add_zero _

/-- The decoder consumes the bytes `bs` from `s` to `t`, each with result 0, and is ready for more under the same
configuration and capacity. -/
structure Consumes (bs : List Byte) (s t : State) : Prop where
  feed : feed bs s = .next t
  results : t.results = s.results ++ List.replicate bs.length (.done false)
  ready : Ready t
  config : t.config = s.config
  cap : t.cap = s.cap

theorem Consumes.nil {s : State} (hr : Ready s) : Consumes [] s s where
  feed := rfl
  results := by simp
  ready := hr
  config := rfl
  cap := rfl

theorem Consumes.append {xs ys : List Byte} {s t u : State} (hx : Consumes xs s t) (hy : Consumes ys t u) :
    Consumes (xs ++ ys) s u where
  feed := by rw [feed_append, hx.feed, andThen_next, hy.feed]
  results := by rw [hy.results, hx.results, List.append_assoc, List.replicate_append_replicate, List.length_append]
  ready := hy.ready
  config := hy.config.trans hx.config
  cap := hy.cap.trans hx.cap

/-- One PROCESS of a ready decoder that returns 0. -/
theorem Consumes.single {s t : State} {b : Byte} (hr : Ready s) (h : execProcess b s = .next t)
    (hres : t.results = s.results ++ [.done false]) : Consumes [b] s t := by
  obtain ⟨hf, hb⟩ := hr
  obtain ⟨hconfig, hcap, hbound, -⟩ := processFrame s t b h
  obtain ⟨hfault, -⟩ := execProcess_done_of_ready ⟨hf, hb⟩ h
  exact ⟨(feed_singleton b s).trans h, hres, ⟨hfault, hbound.trans hb⟩, hconfig, hcap⟩

/-! ## The header (R75, R76, R78) -/

/-- A hunting decoder takes the first magic byte as such, from AWAIT_H2 under REPROCESS too. -/
theorem execProcess_magic1 {s : State} (hr : Ready s) (hh : HuntsForHeader s) :
    execProcess magic1 s = .next { s with
      sum := zext16 magic1, state := .awaitH2, frameValid := false, results := s.results ++ [.done false] } := by
  rcases hh with hs | ⟨hs, hresync⟩
  · exact processInAwaitH1 s magic1 hr hs
  · exact processReprocessesAHeaderMismatch s magic1 hr hs hresync (by decide)

/-- The position in which a length mode reads the first byte of its field (R76). -/
def lengthPosition (m : LenMode) : ParseState := if m = .len1 then .awaitLen else .awaitLenHi

theorem consumes_header {s : State} (hr : Ready s) (hh : HuntsForHeader s) :
    ∃ t, Consumes [magic1, magic2] s t ∧ t.state = lengthPosition s.config.lenMode ∧
      t.sum = byteSum [magic1, magic2] ∧ t.buf = s.buf := by
  have h1 := Consumes.single hr (execProcess_magic1 hr hh) rfl
  have h2 := Consumes.single h1.ready (processSecondMagicByte _ h1.ready rfl) rfl
  exact ⟨_, h1.append h2, rfl, rfl, rfl⟩

/-! ## The length field (R79 to R81, R88) -/

theorem announces_len1_iff {field : List Byte} {n : Nat} :
    Announces .len1 field n ↔ ∃ b, field = [b] ∧ b.toNat = n + 2 := by
  match field with
  | [] => simp [Announces]
  | [b] => simp [Announces]
  | b :: c :: rest => simp [Announces]

theorem announces_len2_iff {field : List Byte} {n : Nat} :
    Announces .len2 field n ↔ ∃ hi lo, field = [hi, lo] ∧ (bePair hi lo).toNat = n + 2 := by
  match field with
  | [] => simp [Announces]
  | [b] => simp [Announces]
  | [hi, lo] => simp [Announces]
  | b :: c :: d :: rest => simp [Announces]

theorem Admits.le_cap {m : LenMode} {cap : Half} {n : Nat} (h : Admits m cap n) : n ≤ cap.toNat := by
  cases m with
  | len1 => exact Nat.le_of_add_right_le h
  | len2 => exact h

/-- The high length byte under LEN2, in the form the low one needs. -/
theorem consumes_lenHi {s : State} (b : Byte) (hr : Ready s) (hs : s.state = .awaitLenHi) :
    ∃ t, Consumes [b] s t ∧ t.state = .awaitLenLo ∧ t.len = bePair b 0x00 ∧ t.sum = s.sum + zext16 b ∧
      t.buf = s.buf :=
  ⟨_, Consumes.single hr (processInAwaitLenHi s b hr hs) rfl, rfl, rfl, rfl, rfl⟩

/-- A length field the capacity admits opens the payload it announces. -/
theorem consumes_field_of_admits {s : State} {field : List Byte} {n : Nat} (hr : Ready s)
    (hs : s.state = lengthPosition s.config.lenMode) (ha : Announces s.config.lenMode field n)
    (hadm : Admits s.config.lenMode s.cap n) :
    ∃ t, Consumes field s t ∧ t.state = .rxPayload ∧ t.idx = 0 ∧ t.len.toNat = n ∧ t.sum = s.sum + byteSum field ∧
      t.buf = s.buf := by
  cases hm : s.config.lenMode with
  | len1 =>
    rw [hm] at hs ha hadm
    obtain ⟨b, rfl, hb⟩ := announces_len1_iff.1 ha
    have hle : n + 2 ≤ s.cap.toNat := hadm
    have hacc : len1Accepts s.cap b = true := len1Accepts_iff.2 (by omega)
    have hlen : (zext16 b - ckAllow).toNat = n := by rw [zext16_sub_ckAllow_toNat (by omega)]; omega
    rw [byteSum_singleton]
    exact ⟨_, Consumes.single hr (execProcess_len_of_accepts hr hs hacc) rfl, rfl, rfl, hlen, rfl, rfl⟩
  | len2 =>
    rw [hm] at hs ha hadm
    obtain ⟨hi, lo, rfl, hl⟩ := announces_len2_iff.1 ha
    have hle : n ≤ s.cap.toNat := hadm
    obtain ⟨t, hhi, ht, htlen, htsum, htbuf⟩ := consumes_lenHi hi hr hs
    have hacc : len2Accepts t.cap (bePair hi lo) = true := len2Accepts_iff.2 (by rw [hhi.cap]; omega)
    have hlen : (bePair hi lo - ckAllow).toNat = n := by rw [sub_ckAllow_toNat (by omega)]; omega
    have hlo := Consumes.single hhi.ready (execProcess_lenLo_of_accepts hhi.ready ht htlen hacc) rfl
    refine ⟨_, hhi.append hlo, rfl, rfl, hlen, ?_, htbuf⟩
    rw [byteSum_cons, byteSum_singleton, ← add_assoc, ← htsum]
    rfl

/-- A length field whose payload is beyond the capacity sends the decoder back to AWAIT_H1. -/
theorem consumes_field_of_not_admits {s : State} {field : List Byte} {n : Nat} (hr : Ready s)
    (hs : s.state = lengthPosition s.config.lenMode) (ha : Announces s.config.lenMode field n)
    (hadm : ¬ Admits s.config.lenMode s.cap n) :
    ∃ t, Consumes field s t ∧ t.state = .awaitH1 ∧ t.buf = s.buf := by
  cases hm : s.config.lenMode with
  | len1 =>
    rw [hm] at hs ha hadm
    obtain ⟨b, rfl, hb⟩ := announces_len1_iff.1 ha
    have hgt : ¬ n + 2 ≤ s.cap.toNat := hadm
    have hrej : ¬ len1Accepts s.cap b = true := fun hacc => hgt (hb ▸ (len1Accepts_iff.1 hacc).2)
    exact ⟨_, Consumes.single hr (execProcess_len_of_rejects hr hs hrej) rfl, rfl, rfl⟩
  | len2 =>
    rw [hm] at hs ha hadm
    obtain ⟨hi, lo, rfl, hl⟩ := announces_len2_iff.1 ha
    have hgt : ¬ n ≤ s.cap.toNat := hadm
    obtain ⟨t, hhi, ht, htlen, -, htbuf⟩ := consumes_lenHi hi hr hs
    have hrej : ¬ len2Accepts t.cap (bePair hi lo) = true := fun hacc => by
      obtain ⟨-, hle⟩ := len2Accepts_iff.1 hacc
      rw [hhi.cap] at hle
      omega
    have hlo := Consumes.single hhi.ready (execProcess_lenLo_of_rejects hhi.ready ht htlen hrej) rfl
    exact ⟨_, hhi.append hlo, rfl, htbuf⟩

/-- Header and length field: the decoder is at the start of the payload, and the sum is that of the bytes so far. -/
theorem consumes_header_field {s : State} {field : List Byte} {n : Nat} (hr : Ready s) (hh : HuntsForHeader s)
    (ha : Announces s.config.lenMode field n) (hadm : Admits s.config.lenMode s.cap n) :
    ∃ t, Consumes (coveredBytes field []) s t ∧ t.state = .rxPayload ∧ t.idx = 0 ∧ t.len.toNat = n ∧
      t.sum = byteSum (coveredBytes field []) ∧ t.buf = s.buf := by
  obtain ⟨t, hheader, ht, htsum, htbuf⟩ := consumes_header hr hh
  rw [← hheader.config] at ht ha hadm
  rw [← hheader.cap] at hadm
  obtain ⟨u, hfield, hu, huidx, hulen, husum, hubuf⟩ := consumes_field_of_admits hheader.ready ht ha hadm
  have hbytes : coveredBytes field [] = [magic1, magic2] ++ field := by simp [coveredBytes]
  rw [hbytes, byteSum_append, ← htsum]
  exact ⟨u, hheader.append hfield, hu, huidx, hulen, husum, hubuf.trans htbuf⟩

/-! ## The payload (R82, R87) -/

/-- Payload bytes that fill all slots that are left close the payload; they are summed and stored from `idx` on. -/
theorem consumes_payload {s : State} {payload : List Byte} (hr : Ready s)
    (hs : s.state = if s.idx = s.len then .awaitCkHi else .rxPayload) (hfits : s.len.toNat ≤ s.config.bufSize)
    (hroom : s.idx.toNat + payload.length = s.len.toNat) :
    ∃ t, Consumes payload s t ∧ t.state = .awaitCkHi ∧ t.len = s.len ∧ t.sum = s.sum + byteSum payload ∧
      t.buf = s.buf.writeBytes s.idx.toNat payload := by
  induction payload generalizing s with
  | nil =>
    have hfull : s.idx = s.len := BitVec.eq_of_toNat_eq hroom
    exact ⟨s, .nil hr, hs.trans (if_pos hfull), rfl, (add_zero _).symm, rfl⟩
  | cons b bs ih =>
    rw [List.length_cons] at hroom
    have hi : s.idx < s.len := BitVec.lt_def.2 (by omega)
    have hrx : s.state = .rxPayload := hs.trans (if_neg (BitVec.ne_of_lt hi))
    have hidx := idx_succ_toNat hi
    have hb := Consumes.single hr (execProcess_store b hr hrx hi (by omega)) rfl
    obtain ⟨t, hbs, ht, htlen, htsum, htbuf⟩ := ih hb.ready (by simp [hrx]) hfits
      (by simp only [respond_idx, closePayload_idx, respond_len, closePayload_len, addToSum_len]; omega)
    refine ⟨t, hb.append hbs, ht, htlen, ?_, ?_⟩
    · rw [byteSum_cons, ← add_assoc]
      exact htsum
    · rw [Memory.writeBytes_cons, ← hidx]
      exact htbuf

/-- Header, length field and a payload of at least one byte. -/
theorem consumes_covered {s : State} {field payload : List Byte} (hinv : Inv s) (hr : Ready s) (hh : HuntsForHeader s)
    (ha : Announces s.config.lenMode field payload.length) (hadm : Admits s.config.lenMode s.cap payload.length)
    (hpos : 1 ≤ payload.length) :
    ∃ t, Consumes (coveredBytes field payload) s t ∧ t.state = .awaitCkHi ∧ t.len.toNat = payload.length ∧
      t.sum = byteSum (coveredBytes field payload) ∧ t.buf = s.buf.writeBytes 0 payload := by
  obtain ⟨t, hfield, ht, htidx, htlen, htsum, htbuf⟩ := consumes_header_field hr hh ha hadm
  have hzero : t.idx.toNat = 0 := by rw [htidx]; rfl
  have hne : t.idx ≠ t.len := fun he => by
    have := congrArg BitVec.toNat he
    omega
  have hfits : t.len.toNat ≤ t.config.bufSize := by
    rw [htlen, hfield.config]
    exact hadm.le_cap.trans hinv.capFits
  obtain ⟨u, hpay, hu, hulen, husum, hubuf⟩ := consumes_payload (payload := payload) hfield.ready
    (ht.trans (if_neg hne).symm) hfits (by omega)
  have hbytes : coveredBytes field payload = coveredBytes field [] ++ payload := by simp [coveredBytes]
  rw [hbytes, byteSum_append, ← htsum]
  refine ⟨u, hfield.append hpay, hu, (congrArg _ hulen).trans htlen, husum, ?_⟩
  rw [hubuf, htbuf, hzero]

/-- Header, length field of an empty payload, and the one byte that is summed and not stored. -/
theorem consumes_covered_empty {s : State} {field : List Byte} (x : Byte) (hr : Ready s) (hh : HuntsForHeader s)
    (ha : Announces s.config.lenMode field 0) (hadm : Admits s.config.lenMode s.cap 0) :
    ∃ t, Consumes (coveredBytes field [x]) s t ∧ t.state = .awaitCkHi ∧ t.len = 0 ∧
      t.sum = byteSum (coveredBytes field [x]) ∧ t.buf = s.buf := by
  obtain ⟨t, hfield, ht, htidx, htlen, htsum, htbuf⟩ := consumes_header_field hr hh ha hadm
  have hlen : t.len = 0 := BitVec.eq_of_toNat_eq htlen
  have hfull : t.idx = t.len := htidx.trans hlen.symm
  have hx := Consumes.single hfield.ready
    (execProcess_noStore x hfield.ready ht (by rw [hfull]; exact BitVec.lt_irrefl _)) rfl
  have hbytes : coveredBytes field [x] = coveredBytes field [] ++ [x] := by simp [coveredBytes]
  rw [hbytes, byteSum_append, byteSum_singleton, ← htsum]
  exact ⟨_, hfield.append hx, if_pos hfull, hlen, rfl, htbuf⟩

/-! ## The checksum (R83, R84) -/

/-- The two checksum bytes complete the frame iff they give the sum; the payload stays as it was. -/
theorem feed_checksum {s : State} (ckHi ckLo : Byte) (hr : Ready s) (hs : s.state = .awaitCkHi) :
    feed [ckHi, ckLo] s = .next { s with
      chk := bePair ckHi ckLo, state := .awaitH1, frameValid := decide (bePair ckHi ckLo = s.sum)
      results := s.results ++ [.done false, .done (decide (bePair ckHi ckLo = s.sum))] } := by
  obtain ⟨hlo, -⟩ := processInAwaitCkLo
  rw [feed, processInAwaitCkHi s ckHi hr hs, andThen_next, feed_singleton, ← exec_process]
  refine (hlo { s with chk := bePair ckHi 0x00, state := .awaitCkLo, frameValid := false
                       results := s.results ++ [.done false] } ckHi ckLo hr rfl rfl).trans ?_
  rw [List.append_assoc]
  rfl

/-- The checksum bytes after the bytes `bs` that it covers. -/
theorem Consumes.feed_checksum {s t : State} {bs : List Byte} (h : Consumes bs s t) (ht : t.state = .awaitCkHi)
    (hsum : t.sum = byteSum bs) (ckHi ckLo : Byte) :
    Machine.feed (bs ++ [ckHi, ckLo]) s = .next { t with
      chk := bePair ckHi ckLo, state := .awaitH1, frameValid := decide (bePair ckHi ckLo = byteSum bs)
      results := s.results ++ List.replicate (bs.length + 1) (.done false) ++
        [.done (decide (bePair ckHi ckLo = byteSum bs))] } := by
  rw [feed_append, h.feed, andThen_next, Machine.feed_checksum ckHi ckLo h.ready ht, hsum, h.results,
    List.replicate_succ']
  simp

/-! ## A framed payload opens the read window (R99, R127) -/

theorem exists_windowOpen {s : State} {field payload : List Byte} {n : Half} (hinv : Inv s) (hr : Ready s)
    (hh : HuntsForHeader s) (ha : Announces s.config.lenMode field payload.length)
    (hadm : Admits s.config.lenMode s.cap payload.length) (hn : n.toNat = payload.length) (hpos : 1 ≤ payload.length) :
    ∃ t, feed (coveredBytes field payload ++ halfBytes (byteSum (coveredBytes field payload))) s = .next t ∧
      WindowOpen t n ∧ ∀ j, j < payload.length → t.buf.read j = payload[j]? := by
  obtain ⟨t, hcov, ht, htlen, htsum, htbuf⟩ := consumes_covered hinv hr hh ha hadm hpos
  have hread : ∀ j, j < payload.length → t.buf.read j = payload[j]? := fun j hj => by
    simpa [htbuf] using s.buf.read_writeBytes_inside 0 payload hj
  refine ⟨_, hcov.feed_checksum ht htsum _ _, ⟨hcov.ready.1, ?_, ?_, ?_, fun a ha => ?_⟩, hread⟩
  · simp
  · exact BitVec.eq_of_toNat_eq (htlen.trans hn.symm)
  · rw [hn]
    exact (hadm.le_cap.trans hinv.capFits).trans_eq (congrArg _ hcov.config.symm)
  · rw [hn] at ha
    exact ⟨payload[a], (hread a ha).trans (List.getElem?_eq_getElem ha)⟩

theorem holdsRecord_of_recordBytes {m : Memory} {r : MeasurementRecord}
    (h : ∀ j, j < 26 → m.read j = (recordBytes r)[j]?) : HoldsRecord m r := by
  simp [HoldsRecord, halfLayout, byteLayout, h, recordBytes, halfBytes]

/-! ## Noise (R89) -/

/-- A hunting decoder takes one byte that does not complete a header: it goes on hunting, in AWAIT_H2 only after the
first magic byte. -/
theorem consumes_noise_byte {s : State} {b : Byte} (hr : Ready s)
    (hs : s.state = .awaitH1 ∨ (s.state = .awaitH2 ∧ b ≠ magic2)) :
    ∃ t, Consumes [b] s t ∧ (t.state = .awaitH1 ∨ (t.state = .awaitH2 ∧ b = magic1)) ∧ t.buf = s.buf := by
  have hpos : (if b = 0x42 then ParseState.awaitH2 else .awaitH1) = .awaitH1 ∨
      ((if b = 0x42 then ParseState.awaitH2 else .awaitH1) = .awaitH2 ∧ b = magic1) := by
    by_cases hb : b = 0x42
    · exact .inr ⟨if_pos hb, hb⟩
    · exact .inl (if_neg hb)
  rcases hs with hs | ⟨hs, hb⟩
  · exact ⟨_, .single hr (processInAwaitH1 s b hr hs) rfl, hpos, rfl⟩
  · cases hresync : s.config.hdrResync with
    | discard => exact ⟨_, .single hr (processDiscardsAHeaderMismatch s b hr hs hresync hb) rfl, .inl rfl, rfl⟩
    | reprocess => exact ⟨_, .single hr (processReprocessesAHeaderMismatch s b hr hs hresync hb) rfl, hpos, rfl⟩

/-- A stream without a header has none in its rest, and no second magic byte after a first one. -/
theorem containsHeader_append_cons {p : Option Byte} {b : Byte} {bs : List Byte}
    (h : containsHeader (p.toList ++ b :: bs) = false) :
    containsHeader (b :: bs) = false ∧ (p = some magic1 → b ≠ magic2) := by
  cases p with
  | none => exact ⟨h, nofun⟩
  | some a =>
    have h : containsHeader (a :: b :: bs) = false := h
    rw [containsHeader, Bool.or_eq_false_iff, List.head?_cons, Bool.and_eq_false_iff] at h
    obtain ⟨hpair, hrest⟩ := h
    refine ⟨hrest, ?_⟩
    rintro ⟨⟩ rfl
    simp at hpair

/-- Noise after the byte `p`, if there is one, where `p` and the noise together hold no header: the decoder hunts on, in
AWAIT_H2 only after the first magic byte. -/
theorem consumes_noise {s : State} {noise : List Byte} (p : Option Byte) (hr : Ready s)
    (hs : s.state = .awaitH1 ∨ (s.state = .awaitH2 ∧ p = some magic1))
    (hnoise : containsHeader (p.toList ++ noise) = false) :
    ∃ t, Consumes noise s t ∧
      (t.state = .awaitH1 ∨ (t.state = .awaitH2 ∧ (p.toList ++ noise).getLast? = some magic1)) ∧ t.buf = s.buf := by
  induction noise generalizing s p with
  | nil =>
    refine ⟨s, .nil hr, hs.imp_right fun ⟨hh2, hp⟩ => ⟨hh2, ?_⟩, rfl⟩
    rw [hp]
    rfl
  | cons b bs ih =>
    obtain ⟨hrest, hpair⟩ := containsHeader_append_cons hnoise
    obtain ⟨t, hb, ht, htbuf⟩ := consumes_noise_byte (b := b) hr (hs.imp_right fun ⟨hh2, hp⟩ => ⟨hh2, hpair hp⟩)
    obtain ⟨u, hbs, hu, hubuf⟩ := ih (some b) hb.ready (ht.imp_right fun ⟨hh2, hm⟩ => ⟨hh2, congrArg some hm⟩) hrest
    refine ⟨u, hb.append hbs, ?_, hubuf.trans htbuf⟩
    rwa [List.getLast?_append_cons]

/-! ## The statements -/

/-- Settles O34: header, length field and payload (`consumes_covered`), then the checksum. -/
theorem frameCompletesIffItsChecksumIsTheSum : Obligations.FrameCompletesIffItsChecksumIsTheSum := by
  intro s field payload ckHi ckLo hinv hr hh ha hadm hpos
  obtain ⟨t, hcov, ht, htlen, htsum, htbuf⟩ := consumes_covered hinv hr hh ha hadm hpos
  refine ⟨_, hcov.feed_checksum ht htsum ckHi ckLo, rfl, rfl, htlen, rfl, fun j hj => ?_⟩
  simpa [htbuf] using s.buf.read_writeBytes_inside 0 payload hj

/-- Settles O35: the covered bytes are those of a payload of the one extra byte. -/
theorem emptyPayloadTakesOneMoreByte : Obligations.EmptyPayloadTakesOneMoreByte := by
  intro s field x ckHi ckLo hinv hr hh ha hadm
  obtain ⟨t, hcov, ht, htlen, htsum, htbuf⟩ := consumes_covered_empty x hr hh ha hadm
  have hbytes : coveredBytes field [] ++ [x, ckHi, ckLo] = coveredBytes field [x] ++ [ckHi, ckLo] := by
    simp [coveredBytes]
  have hlength : (coveredBytes field []).length + 2 = (coveredBytes field [x]).length + 1 := by simp [coveredBytes]
  rw [hbytes, hlength]
  exact ⟨_, hcov.feed_checksum ht htsum ckHi ckLo, rfl, rfl, htlen, fun a => congrArg (Memory.read · a) htbuf⟩

/-- Settles O36: the header, then the rejected length field. -/
theorem oversizedLengthIsRejected : Obligations.OversizedLengthIsRejected := by
  intro s field n hinv hr hh ha hadm
  obtain ⟨t, hheader, ht, -, htbuf⟩ := consumes_header hr hh
  rw [← hheader.config] at ht ha hadm
  rw [← hheader.cap] at hadm
  obtain ⟨u, hfield, hu, hubuf⟩ := consumes_field_of_not_admits hheader.ready ht ha hadm
  have hall := hheader.append hfield
  have hbytes : coveredBytes field [] = [magic1, magic2] ++ field := by simp [coveredBytes]
  rw [hbytes]
  exact ⟨u, hall.feed, hall.results, hu, hall.ready, fun a => by rw [hubuf, htbuf]⟩

/-- Settles O37: `consumes_noise` with no byte before the noise. -/
theorem noiseNeverCompletesAFrame : Obligations.NoiseNeverCompletesAFrame := by
  intro s noise hr hs hnoise
  obtain ⟨t, hcons, ht, htbuf⟩ := consumes_noise none hr (.inl hs) hnoise
  exact ⟨t, hcons.feed, hcons.results, hcons.ready, ht, fun a => by rw [htbuf]⟩

/-- Settles O38: the frame opens the read window on the 26 bytes of the record, and PARSE reads the record they hold. -/
theorem parseRecoversTheFramedRecord : Obligations.ParseRecoversTheFramedRecord := by
  intro s field r hinv hr hh ha hadm
  obtain ⟨t, hfeed, hwindow, hread⟩ := exists_windowOpen (payload := recordBytes r) (n := 26) hinv hr hh ha hadm rfl
    (by simp [recordBytes, byteLayout])
  exact ⟨t, hfeed, execParse_of_windowOpen hwindow (holdsRecord_of_recordBytes hread)⟩

/-- Settles O39: the frame opens the read window on the two bytes of the value, high byte first. -/
theorem parseShortRecoversTheFramedValue : Obligations.ParseShortRecoversTheFramedValue := by
  intro s field v hinv hr hh ha hadm
  obtain ⟨t, hfeed, hwindow, hread⟩ := exists_windowOpen (payload := halfBytes v) (n := 2) hinv hr hh ha hadm rfl
    (by decide : 1 ≤ 2)
  exact ⟨t, hfeed, execParseShort_of_windowOpen hwindow (hread 0 (by decide : 0 < 2)) (hread 1 (by decide : 1 < 2))⟩

end Sys2Proof.Machine
end
